-- ==== Sys2Proof/Word.lean ====
section
/-! DEFINITION. The word types of the block: bytes, 16-bit words, register numbers and the 12-bit
address immediate (spec/00_scope.md R6, R8; spec/30_encoding.md R101). All values are unsigned (R8). -/

namespace Sys2Proof

/-- An 8-bit value: a general register, a timer, a byte of memory, an immediate `nn`. -/
abbrev Byte := BitVec 8

/-- A 16-bit value: an instruction word, the index register, the program counter, a stack entry. -/
abbrev Word := BitVec 16

/-- The number of a general register, V0 to VF (spec/10_state.md R31). -/
abbrev Reg := Fin 16

/-- The 12-bit address immediate `nnn` (spec/30_encoding.md R102). -/
abbrev Nnn := BitVec 12

/-- `MEM_SIZE` (R6): addresses 0x000 to 0xFFF. -/
abbrev memSize : Nat := 4096

/-- `FONT_BASE` (R6). -/
abbrev fontBase : Nat := 0x050

/-- `PROG_BASE` (R6), also the reset pc. -/
abbrev progBase : Nat := 0x200

/-- `MAX_ROM` (R6): 4096 - 512 bytes. -/
abbrev maxRom : Nat := 3584

/-- `DISPLAY_W` (R6): columns. -/
abbrev displayW : Nat := 64

/-- `DISPLAY_H` (R6): rows. -/
abbrev displayH : Nat := 32

/-- `STACK_DEPTH` (R6). -/
abbrev stackDepth : Nat := 16

/-- VF, the register that doubles as the flag (spec/10_state.md R32). -/
abbrev regF : Reg := 15

end Sys2Proof
end

