-- ==== Sys2Proof/Syntax.lean ====
section
/-! DEFINITION. The 30 instructions of spec/30_encoding.md R104, one constructor per row of
spec/opcode_table.json, in the table's order. Operands are decoded fields (R101), never raw bits. -/

namespace Sys2Proof

/-- One instruction. `x`, `y` are register numbers, `nn` a byte, `nnn` a 12-bit address, `n` a row
count. `shr` and `shl` keep the `y` field, which is free and unused (R104), so that every word of
the map has one instruction and every instruction one word. -/
inductive Instr where
  /-- 00E0 `CLS` (R272). -/
  | cls
  /-- 00EE `RET` (R140). -/
  | ret
  /-- 1nnn `JP nnn` (R141). -/
  | jp (nnn : Nnn)
  /-- 2nnn `CALL nnn` (R142). -/
  | call (nnn : Nnn)
  /-- 3xnn `SE Vx, nn` (R143). -/
  | seImm (x : Reg) (nn : Byte)
  /-- 4xnn `SNE Vx, nn` (R144). -/
  | sneImm (x : Reg) (nn : Byte)
  /-- 5xy0 `SE Vx, Vy` (R145). -/
  | seReg (x y : Reg)
  /-- 6xnn `LD Vx, nn` (R182). -/
  | ldImm (x : Reg) (nn : Byte)
  /-- 7xnn `ADD Vx, nn` (R183). -/
  | addImm (x : Reg) (nn : Byte)
  /-- 8xy0 `LD Vx, Vy` (R184). -/
  | ldReg (x y : Reg)
  /-- 8xy1 `OR Vx, Vy` (R185). -/
  | orReg (x y : Reg)
  /-- 8xy2 `AND Vx, Vy` (R186). -/
  | andReg (x y : Reg)
  /-- 8xy3 `XOR Vx, Vy` (R187). -/
  | xorReg (x y : Reg)
  /-- 8xy4 `ADD Vx, Vy` (R188). -/
  | addReg (x y : Reg)
  /-- 8xy5 `SUB Vx, Vy` (R189). -/
  | subReg (x y : Reg)
  /-- 8xy6 `SHR Vx {, Vy}` (R190). -/
  | shrReg (x y : Reg)
  /-- 8xy7 `SUBN Vx, Vy` (R191). -/
  | subnReg (x y : Reg)
  /-- 8xyE `SHL Vx {, Vy}` (R192). -/
  | shlReg (x y : Reg)
  /-- 9xy0 `SNE Vx, Vy` (R146). -/
  | sneReg (x y : Reg)
  /-- Annn `LD I, nnn` (R230). -/
  | ldI (nnn : Nnn)
  /-- Bnnn `JP V0, nnn` (R147). -/
  | jpV0 (nnn : Nnn)
  /-- Cxnn `RND Vx, nn` (R300). -/
  | rnd (x : Reg) (nn : Byte)
  /-- Dxyn `DRW Vx, Vy, n` (R273). -/
  | drw (x y : Reg) (n : Nat)
  /-- Ex9E `SKP Vx` (R301). -/
  | skp (x : Reg)
  /-- ExA1 `SKNP Vx` (R302). -/
  | sknp (x : Reg)
  /-- Fx1E `ADD I, Vx` (R231). -/
  | addI (x : Reg)
  /-- Fx29 `LD F, Vx` (R232). -/
  | ldF (x : Reg)
  /-- Fx33 `LD B, Vx` (R233). -/
  | ldB (x : Reg)
  /-- Fx55 `LD [I], Vx` (R234). -/
  | ldStore (x : Reg)
  /-- Fx65 `LD Vx, [I]` (R235). -/
  | ldLoad (x : Reg)
deriving DecidableEq, Repr

end Sys2Proof
end

