-- ==== Sys2Proof/Decode.lean ====
section
/-! DEFINITION. The decoder of spec/30_encoding.md (R100 to R108), total on any bytes; the encoder
written from the same table; and the opcode map of R104 as data, a mask and a pattern per row. -/

namespace Sys2Proof

/-- `op = w[15:12]` (R101). -/
def opField (w : Word) : BitVec 4 := w.extractLsb' 12 4

/-- `x = w[11:8]` (R101), a register number. -/
def xField (w : Word) : Reg := (w.extractLsb' 8 4).toFin

/-- `y = w[7:4]` (R101), a register number. -/
def yField (w : Word) : Reg := (w.extractLsb' 4 4).toFin

/-- `n = w[3:0]` (R101). -/
def nField (w : Word) : BitVec 4 := w.extractLsb' 0 4

/-- `nn = w[7:0]` (R101). -/
def nnField (w : Word) : Byte := w.extractLsb' 0 8

/-- `nnn = w[11:0]` (R101). -/
def nnnField (w : Word) : Nnn := w.extractLsb' 0 12

/-- The group op = 0x0 (R104, R105). -/
def decodeSystem (w : Word) : Option Instr :=
  if w = 0x00E0#16 then some .cls
  else if w = 0x00EE#16 then some .ret
  else none

/-- The group op = 0x8, selected by bits 3:0 (R104, R105). -/
def decodeAlu (w : Word) : Option Instr :=
  match (nField w).toNat with
  | 0x0 => some (.ldReg (xField w) (yField w))
  | 0x1 => some (.orReg (xField w) (yField w))
  | 0x2 => some (.andReg (xField w) (yField w))
  | 0x3 => some (.xorReg (xField w) (yField w))
  | 0x4 => some (.addReg (xField w) (yField w))
  | 0x5 => some (.subReg (xField w) (yField w))
  | 0x6 => some (.shrReg (xField w) (yField w))
  | 0x7 => some (.subnReg (xField w) (yField w))
  | 0xE => some (.shlReg (xField w) (yField w))
  | _ => none

/-- The group op = 0xE, selected by bits 7:0 (R104, R105). -/
def decodeKey (w : Word) : Option Instr :=
  if nnField w = 0x9E#8 then some (.skp (xField w))
  else if nnField w = 0xA1#8 then some (.sknp (xField w))
  else none

/-- The group op = 0xF, selected by bits 7:0 (R104, R105). -/
def decodeIndex (w : Word) : Option Instr :=
  if nnField w = 0x1E#8 then some (.addI (xField w))
  else if nnField w = 0x29#8 then some (.ldF (xField w))
  else if nnField w = 0x33#8 then some (.ldB (xField w))
  else if nnField w = 0x55#8 then some (.ldStore (xField w))
  else if nnField w = 0x65#8 then some (.ldLoad (xField w))
  else none

/-- The decoder on one word: a pure function of the word (R101, R104, R108). `none` is an
unimplemented opcode (R105). The last case is never reached: op has four bits. -/
def decodeWord (w : Word) : Option Instr :=
  match (opField w).toNat with
  | 0x0 => decodeSystem w
  | 0x1 => some (.jp (nnnField w))
  | 0x2 => some (.call (nnnField w))
  | 0x3 => some (.seImm (xField w) (nnField w))
  | 0x4 => some (.sneImm (xField w) (nnField w))
  | 0x5 => if nField w = 0#4 then some (.seReg (xField w) (yField w)) else none
  | 0x6 => some (.ldImm (xField w) (nnField w))
  | 0x7 => some (.addImm (xField w) (nnField w))
  | 0x8 => decodeAlu w
  | 0x9 => if nField w = 0#4 then some (.sneReg (xField w) (yField w)) else none
  | 0xA => some (.ldI (nnnField w))
  | 0xB => some (.jpV0 (nnnField w))
  | 0xC => some (.rnd (xField w) (nnField w))
  | 0xD => some (.drw (xField w) (yField w) (nField w).toNat)
  | 0xE => decodeKey w
  | 0xF => decodeIndex w
  | _ => none

/-- Why a byte string has no instruction at its front. -/
inductive DecodeError where
  /-- Fewer than two bytes: an instruction is always two (R107). -/
  | truncated
  /-- The word matches no row of R104 (R105). -/
  | unimplementedOpcode (w : Word)
deriving DecidableEq, Repr

/-- The 16-bit word of two bytes, the first in bits 15:8: `(b0 << 8) | b1` (R74, R100). -/
def wordOfBytes (b0 b1 : Byte) : Word := b0 ++ b1

/-- Bits 15:8 of a word: the byte at the lower address (R75). -/
def highByte (w : Word) : Byte := w.extractLsb' 8 8

/-- Bits 7:0 of a word: the byte at the higher address (R75). -/
def lowByte (w : Word) : Byte := w.extractLsb' 0 8

/-- The decoder on bytes: it consumes exactly two (R107) and rejects by name. -/
def decode : List Byte → Except DecodeError (Instr × List Byte)
  | b0 :: b1 :: rest =>
    match decodeWord (wordOfBytes b0 b1) with
    | some i => .ok (i, rest)
    | none => .error (.unimplementedOpcode (wordOfBytes b0 b1))
  | [_] => .error .truncated
  | [] => .error .truncated

/-- The host's probe of the decoder: the word `w` of an opcode-table row of `nbits` bits (bits above
`nbits` are 0), laid out big-endian (R74) and decoded. Instructions are 16 bits long (R100). -/
def decodeTableWord (nbits w : Nat) : Option Instr :=
  if nbits ≤ 16 then
    let word : Word := BitVec.ofNat 16 (w % 2 ^ nbits)
    match decode [highByte word, lowByte word] with
    | .ok (i, _) => some i
    | .error _ => none
  else none

/-- The 4-bit field of a register number (R103). -/
def regBits (r : Reg) : BitVec 4 := BitVec.ofFin r

/-- A word of the shape op ++ nnn. -/
def encNnn (op : BitVec 4) (nnn : Nnn) : Word := op ++ nnn

/-- A word of the shape op ++ x ++ nn. -/
def encXnn (op : BitVec 4) (x : Reg) (nn : Byte) : Word := op ++ (regBits x ++ nn)

/-- A word of the shape op ++ x ++ y ++ n. -/
def encXyn (op : BitVec 4) (x y : Reg) (n : BitVec 4) : Word := op ++ (regBits x ++ (regBits y ++ n))

/-- The word of a well-formed instruction, from the table of R104. -/
def encode : Instr → Word
  | .cls => 0x00E0#16
  | .ret => 0x00EE#16
  | .jp nnn => encNnn 0x1 nnn
  | .call nnn => encNnn 0x2 nnn
  | .seImm x nn => encXnn 0x3 x nn
  | .sneImm x nn => encXnn 0x4 x nn
  | .seReg x y => encXyn 0x5 x y 0x0
  | .ldImm x nn => encXnn 0x6 x nn
  | .addImm x nn => encXnn 0x7 x nn
  | .ldReg x y => encXyn 0x8 x y 0x0
  | .orReg x y => encXyn 0x8 x y 0x1
  | .andReg x y => encXyn 0x8 x y 0x2
  | .xorReg x y => encXyn 0x8 x y 0x3
  | .addReg x y => encXyn 0x8 x y 0x4
  | .subReg x y => encXyn 0x8 x y 0x5
  | .shrReg x y => encXyn 0x8 x y 0x6
  | .subnReg x y => encXyn 0x8 x y 0x7
  | .shlReg x y => encXyn 0x8 x y 0xE
  | .sneReg x y => encXyn 0x9 x y 0x0
  | .ldI nnn => encNnn 0xA nnn
  | .jpV0 nnn => encNnn 0xB nnn
  | .rnd x nn => encXnn 0xC x nn
  | .drw x y n => encXyn 0xD x y (BitVec.ofNat 4 n)
  | .skp x => encXnn 0xE x 0x9E
  | .sknp x => encXnn 0xE x 0xA1
  | .addI x => encXnn 0xF x 0x1E
  | .ldF x => encXnn 0xF x 0x29
  | .ldB x => encXnn 0xF x 0x33
  | .ldStore x => encXnn 0xF x 0x55
  | .ldLoad x => encXnn 0xF x 0x65

/-- The two bytes of an instruction, in memory order (R74, R75). -/
def encodeBytes (i : Instr) : List Byte := [highByte (encode i), lowByte (encode i)]

/-- One row of the opcode map of R104: a word `w` belongs to it when `w &&& mask = pattern`; `build`
reads its operands from the fields of R101. -/
structure OpcodeRow where
  pattern : Word
  mask : Word
  build : Word → Instr

/-- Whether a word belongs to a row (R104). -/
def OpcodeRow.covers (r : OpcodeRow) (w : Word) : Bool := w &&& r.mask == r.pattern

/-- The rows 00E0 to 7xnn of R104. -/
def opcodeTableLow : List OpcodeRow :=
  [ ⟨0x00E0, 0xFFFF, fun _ => .cls⟩,
    ⟨0x00EE, 0xFFFF, fun _ => .ret⟩,
    ⟨0x1000, 0xF000, fun w => .jp (nnnField w)⟩,
    ⟨0x2000, 0xF000, fun w => .call (nnnField w)⟩,
    ⟨0x3000, 0xF000, fun w => .seImm (xField w) (nnField w)⟩,
    ⟨0x4000, 0xF000, fun w => .sneImm (xField w) (nnField w)⟩,
    ⟨0x5000, 0xF00F, fun w => .seReg (xField w) (yField w)⟩,
    ⟨0x6000, 0xF000, fun w => .ldImm (xField w) (nnField w)⟩,
    ⟨0x7000, 0xF000, fun w => .addImm (xField w) (nnField w)⟩ ]

/-- The rows 8xy0 to 9xy0 of R104. -/
def opcodeTableAlu : List OpcodeRow :=
  [ ⟨0x8000, 0xF00F, fun w => .ldReg (xField w) (yField w)⟩,
    ⟨0x8001, 0xF00F, fun w => .orReg (xField w) (yField w)⟩,
    ⟨0x8002, 0xF00F, fun w => .andReg (xField w) (yField w)⟩,
    ⟨0x8003, 0xF00F, fun w => .xorReg (xField w) (yField w)⟩,
    ⟨0x8004, 0xF00F, fun w => .addReg (xField w) (yField w)⟩,
    ⟨0x8005, 0xF00F, fun w => .subReg (xField w) (yField w)⟩,
    ⟨0x8006, 0xF00F, fun w => .shrReg (xField w) (yField w)⟩,
    ⟨0x8007, 0xF00F, fun w => .subnReg (xField w) (yField w)⟩,
    ⟨0x800E, 0xF00F, fun w => .shlReg (xField w) (yField w)⟩,
    ⟨0x9000, 0xF00F, fun w => .sneReg (xField w) (yField w)⟩ ]

/-- The rows Annn to Fx65 of R104. -/
def opcodeTableHigh : List OpcodeRow :=
  [ ⟨0xA000, 0xF000, fun w => .ldI (nnnField w)⟩,
    ⟨0xB000, 0xF000, fun w => .jpV0 (nnnField w)⟩,
    ⟨0xC000, 0xF000, fun w => .rnd (xField w) (nnField w)⟩,
    ⟨0xD000, 0xF000, fun w => .drw (xField w) (yField w) (nField w).toNat⟩,
    ⟨0xE09E, 0xF0FF, fun w => .skp (xField w)⟩,
    ⟨0xE0A1, 0xF0FF, fun w => .sknp (xField w)⟩,
    ⟨0xF01E, 0xF0FF, fun w => .addI (xField w)⟩,
    ⟨0xF029, 0xF0FF, fun w => .ldF (xField w)⟩,
    ⟨0xF033, 0xF0FF, fun w => .ldB (xField w)⟩,
    ⟨0xF055, 0xF0FF, fun w => .ldStore (xField w)⟩,
    ⟨0xF065, 0xF0FF, fun w => .ldLoad (xField w)⟩ ]

/-- The opcode map of R104, its 30 rows in order. -/
def opcodeTable : List OpcodeRow := opcodeTableLow ++ opcodeTableAlu ++ opcodeTableHigh

end Sys2Proof
end

