-- ==== Sys2Proof/Config.lean ====
section
/-! DEFINITION. The configuration parameters of spec/00_scope.md R7 and the free values the spec
leaves to the host or leaves open. Parameters are plain data that the model takes as an argument
(they travel in `State.cfg`, which no step changes); free values are opaque constants. -/

namespace Sys2Proof

/-- `RANGE_POLICY` (R7, D1): what an out-of-range address or key value does. -/
inductive RangePolicy where
  | fault
  | wrap
deriving DecidableEq, Repr

/-- `SHL_VARIANT` (R7, D8): the direction of 8xyE. -/
inductive ShlVariant where
  | left
  | sourceRight
deriving DecidableEq, Repr

/-- The parameters of R7 that have a value; `ENTROPY` is an input (`State.entropyIn`, `Config.freeEntropy`). -/
structure Config where
  /-- `RANGE_POLICY`. -/
  rangePolicy : RangePolicy
  /-- `SHL_VARIANT`. -/
  shlVariant : ShlVariant
  /-- `FONT`: 80 bytes, glyph d at offset 5d (spec/20_memory.md R85). -/
  font : List Byte
  /-- `IPS`, instructions per second: a positive rational. -/
  ips : Rat
  /-- `FRAME_RATE`, frame ticks per second: a positive rational. -/
  frameRate : Rat
deriving DecidableEq, Repr

/-- What R7 asks of the parameters: 80 font bytes, positive rates. -/
abbrev Config.wf (c : Config) : Prop := c.font.length = 80 ∧ 0 < c.ips ∧ 0 < c.frameRate

/-- Rows 0 to 7 of the default `FONT` table (R85; the bytes are PRESUMED by the spec, G1). -/
def defaultFontLow : List Byte :=
  [0xF0, 0x90, 0x90, 0x90, 0xF0] ++
  [0x20, 0x60, 0x20, 0x20, 0x70] ++
  [0xF0, 0x10, 0xF0, 0x80, 0xF0] ++
  [0xF0, 0x10, 0xF0, 0x10, 0xF0] ++
  [0x90, 0x90, 0xF0, 0x10, 0x10] ++
  [0xF0, 0x80, 0xF0, 0x10, 0xF0] ++
  [0xF0, 0x80, 0xF0, 0x90, 0xF0] ++
  [0xF0, 0x10, 0x20, 0x40, 0x40]

/-- Rows 8 to F of the default `FONT` table (R85). -/
def defaultFontHigh : List Byte :=
  [0xF0, 0x90, 0xF0, 0x90, 0xF0] ++
  [0xF0, 0x90, 0xF0, 0x10, 0xF0] ++
  [0xF0, 0x90, 0xF0, 0x90, 0x90] ++
  [0xE0, 0x90, 0xE0, 0x90, 0xE0] ++
  [0xF0, 0x80, 0x80, 0x80, 0xF0] ++
  [0xE0, 0x90, 0x90, 0x90, 0xE0] ++
  [0xF0, 0x80, 0xF0, 0x80, 0xF0] ++
  [0xF0, 0x80, 0xF0, 0x80, 0x80]

/-- The default of `FONT` (R85). -/
def defaultFont : List Byte := defaultFontLow ++ defaultFontHigh

/-- Part of the free value of `IPS`, which is OPEN (R7, D11): see `Config.openIps`. -/
opaque Config.openIpsNum : Nat

/-- Part of the free value of `IPS`, which is OPEN (R7, D11): see `Config.openIps`. -/
opaque Config.openIpsDen : Nat

/-- `IPS` has no default (R7): an unknown positive rational (log entry 5). -/
def Config.openIps : Rat :=
  ((Config.openIpsNum + 1 : Nat) : Rat) / ((Config.openIpsDen + 1 : Nat) : Rat)

/-- The defaults of R7. -/
def Config.default : Config where
  rangePolicy := .fault
  shlVariant := .left
  font := defaultFont
  ips := Config.openIps
  frameRate := 60

/-- FREE VALUE (log entry 6): the n-th byte of `ENTROPY` when the host has queued none (R300, R348, D12). -/
opaque Config.freeEntropy : Nat → Byte

/-- FREE VALUE (log entry 7): the sixteen key levels at the n-th draw when the host has queued none
(R347, D13). Bit k is key k. -/
opaque Config.freeKeys : Nat → BitVec 16

/-- FREE VALUE (log entry 8): VF after 8xyE under `SOURCE_RIGHT`, any value in {0, 1} (R192, U7). -/
opaque Config.freeShlFlag : Nat → Bool

end Sys2Proof
end

