-- ==== Sys2Proof/Machine/State.lean ====
section
/-! DEFINITION. The state of the block (spec/10_state.md R30), its status (R42), the host ports of
spec/60_exceptions.md R349, and the state after reset (spec/70_reset_and_hazards.md R400). -/

namespace Sys2Proof.Machine

/-- `fb[row][col]`: 32 rows of 64 one-bit pixels, row 0 the top, column 0 the left (R40, R270). -/
abbrev Framebuffer := Vector (Vector Bool 64) 32

/-- Memory as (address, byte) pairs in the canonical form of `Memory.wf` (R70). -/
abbrev Memory := List Host.Cell

/-- The run status of R42. `awaitingLoad` is R400's "not yet RUNNING" (log entry 12). -/
inductive RunState where
  | awaitingLoad
  | running
  | stopped
  | faulted
deriving DecidableEq, Repr

/-- A fault kind together with the info it records (R330). -/
inductive FaultCause where
  /-- Code 1; the word (R331). -/
  | unimplementedOpcode (w : Word)
  /-- Code 2; no info (R332). -/
  | stackOverflow
  /-- Code 3; no info (R332). -/
  | stackUnderflow
  /-- Code 4; the unbounded address (R335). -/
  | addressOutOfRange (a : Nat)
  /-- Code 5; the value of Vx (R336). -/
  | keyIndexOutOfRange (v : Byte)
deriving DecidableEq, Repr

/-- The fault record of R42: kind and info, and the address of the faulting instruction (R334). -/
structure FaultRecord where
  cause : FaultCause
  faultPc : Word
deriving DecidableEq, Repr

/-- What `LoadProgram` answers the host (R402). -/
inductive LoadResult where
  | ok
  | empty
  | tooLarge
deriving DecidableEq, Repr

/-- What the block sends the renderer (R346). -/
inductive DisplayEvent where
  /-- `clear()`, one per CLS. -/
  | clear
  /-- `present(fb)`, one per frame tick, with a copy of all pixels. -/
  | present (fb : Framebuffer)
deriving DecidableEq, Repr

/-- What the host does to the block as a step of its own (R349). -/
inductive HostEvent where
  /-- Reset: the construction of R400. -/
  | reset
  /-- `LoadProgram(bytes)` (R402). -/
  | load (bytes : List Byte)
  /-- `SchedulerIteration(elapsed, quit)` (R343); `elapsed` is in seconds. -/
  | iteration (elapsed : Rat) (quit : Bool)
deriving DecidableEq, Repr

/-- The state. The fields down to `sinceLastFrame` are the spec's (R30); those after it are the
model's own: the parameters of R7, the ports of R349 and the free-value counter (log entries 1, 2,
6, 7, 15). -/
structure State where
  /-- `mem` (R70). -/
  mem : Memory
  /-- `V[0..15]` (R31). -/
  v : Vector Byte 16
  /-- `I` (R33). -/
  i : Word
  /-- `pc` (R34). -/
  pc : Word
  /-- `stack[0..15]` (R37). -/
  stack : Vector Word 16
  /-- `sp`, the count of occupied entries, 0 to 16 (R37). -/
  sp : Fin 17
  /-- `DT` (R39). -/
  dt : Byte
  /-- `ST` (R39). -/
  st : Byte
  /-- `fb` (R40). -/
  fb : Framebuffer
  /-- `run` (R42). -/
  run : RunState
  /-- `fault` (R42). -/
  fault : Option FaultRecord
  /-- `since_last_step`, seconds (R43). -/
  sinceLastStep : Rat
  /-- `since_last_frame`, seconds (R43). -/
  sinceLastFrame : Rat
  /-- The parameters of R7, fixed for a run (R44). -/
  cfg : Config
  /-- The answer of the one `LoadProgram` since reset, if it was called (R402, D24). -/
  load : Option LoadResult
  /-- Host actions not yet taken, oldest first (R349). -/
  hostIn : List HostEvent
  /-- `ENTROPY` bytes the host has queued, next first (R348); when empty, free values. -/
  entropyIn : List Byte
  /-- Key levels the host has queued for the next keypad reads (R347); when empty, free values. -/
  keysIn : List (BitVec 16)
  /-- Display port events so far, oldest first (R346). -/
  displayOut : List DisplayEvent
  /-- How many free values have been drawn. -/
  draws : Nat
deriving DecidableEq, Repr

/-- Reasons a step stops: the halted block of R110, "A step in a state with `run != RUNNING` does not
exist", one name per way of not running. All are safe: nothing runs on. -/
inductive Fault where
  /-- Raised by `step` when no program has been loaded since reset (R402); safe. -/
  | noProgramLoaded
  /-- Raised by `step` after a quit (R345); final until reset; safe. -/
  | blockStopped
  /-- Raised by `step` after a fault, with its record (R339); final until reset; safe. -/
  | blockFaulted (record : Option FaultRecord)
deriving DecidableEq, Repr

/-- Cases the model has no transition for. -/
inductive Refusal where
  /-- Raised by an arm of `exec` that has no meaning yet; none is left. Safe. -/
  | notModelled (mnemonic : String)
  /-- Raised by `step` on a second `LoadProgram` after one reset, which "the block has no" (R402, D24;
  log entry 14). Safe. -/
  | secondLoad
deriving DecidableEq, Repr

/-- The state `Reset()` leaves (R400), for given parameters; no input is queued. -/
def State.resetWith (c : Config) : State where
  mem := []
  v := Vector.replicate 16 0
  i := 0
  pc := 0x200
  stack := Vector.replicate 16 0
  sp := 0
  dt := 0
  st := 0
  fb := Vector.replicate 32 (Vector.replicate 64 false)
  run := .awaitingLoad
  fault := none
  sinceLastStep := 0
  sinceLastFrame := 0
  cfg := c
  load := none
  hostIn := []
  entropyIn := []
  keysIn := []
  displayOut := []
  draws := 0

/-- The machine right after reset (R400), with the default parameters of R7. -/
def State.reset : State := State.resetWith Config.default

end Sys2Proof.Machine
end

