-- ==== Sys2Proof/Machine/Ops.lean ====
section
/-! DEFINITION. The shared operations: memory and the address check (spec/20_memory.md), the register
file, the pc, the stack, the host inputs, the framebuffer, and taking a fault (spec/60_exceptions.md
R333). There is no return from a fault (R339): the only way out of a faulted block is reset,
`resetBlock`, which stands beside `takeFault`. -/

namespace Sys2Proof.Machine

/-! ### Memory -/

/-- The reset content of an address, which an unlisted address reads as: `FONT` in 0x050 to 0x09F and
0x00 elsewhere (R71, R400, D6). -/
def background (c : Config) (a : Nat) : Byte :=
  if fontBase ≤ a ∧ a < fontBase + 80 then c.font.getD (a - fontBase) 0 else 0

/-- The listed byte of an address, if any. -/
def memLookup (a : Nat) : Memory → Option Byte
  | [] => none
  | (b, v) :: m => if b = a then some v else memLookup a m

/-- Memory with no entry for an address. -/
def memErase (a : Nat) : Memory → Memory
  | [] => []
  | (b, v) :: m => if b = a then memErase a m else (b, v) :: memErase a m

/-- Memory with an entry put at its place in the rising order. -/
def memInsert (a : Nat) (v : Byte) : Memory → Memory
  | [] => [(a, v)]
  | (b, w) :: m =>
    if a < b then (a, v) :: (b, w) :: m
    else if a = b then (a, v) :: m
    else (b, w) :: memInsert a v m

/-- `mem[a]` for an address that the check has passed. -/
def memRead (c : Config) (m : Memory) (a : Nat) : Byte := (memLookup a m).getD (background c a)

/-- `mem[a] <- v` for an address that the check has passed; keeps the canonical form. -/
def memWrite (c : Config) (a : Nat) (v : Byte) (m : Memory) : Memory :=
  if v = background c a then memErase a m else memInsert a v m

/-- `Memory.wf` from an address on. -/
def memWfFrom (c : Config) (lo : Nat) : Memory → Bool
  | [] => true
  | (a, v) :: m =>
    decide (lo ≤ a) && decide (a < memSize) && decide (v ≠ background c a) && memWfFrom c (a + 1) m

/-- The canonical form: addresses strictly rising and below 4096, no entry equal to what its address
reads as unlisted. -/
def Memory.wf (c : Config) (m : Memory) : Bool := memWfFrom c 0 m

/-- The byte at an effective address (R73). -/
def readByte (s : State) (a : Nat) : Byte := memRead s.cfg s.mem a

/-- Write the byte at an effective address (R73). -/
def writeByte (a : Nat) (v : Byte) (s : State) : State := { s with mem := memWrite s.cfg a v s.mem }

/-- Write bytes to effective addresses, first pair first (R75). -/
def writeBytes : List (Nat × Byte) → State → State
  | [], s => s
  | (a, v) :: rest, s => writeBytes rest (writeByte a v s)

/-- `EffAddr(a)` (R72); an error carries the out-of-range address. -/
def effAddr (p : RangePolicy) (a : Nat) : Except Nat Nat :=
  if a < memSize then .ok a
  else match p with
    | .fault => .error a
    | .wrap => .ok (a % memSize)

/-- All the addresses of an instruction checked in access order before anything is written (R335);
the error is the first that is out of range. -/
def effAddrs (p : RangePolicy) : List Nat → Except Nat (List Nat)
  | [] => .ok []
  | a :: rest =>
    match effAddr p a with
    | .error b => .error b
    | .ok b =>
      match effAddrs p rest with
      | .error e => .error e
      | .ok bs => .ok (b :: bs)

/-! ### Registers, pc -/

/-- Read of `V[r]` (R31). -/
def getV (s : State) (r : Reg) : Byte := s.v[r.val]

/-- Write of `V[r]` (R31); no register is hard-wired. -/
def setV (r : Reg) (b : Byte) (s : State) : State := { s with v := s.v.set r.val b }

/-- Write `V[k]`, `V[k+1]`, … from a list, up to VF (Fx65, R235). -/
def loadRegsFrom : Nat → List Byte → State → State
  | _, [], s => s
  | k, b :: bs, s => loadRegsFrom (k + 1) bs (if h : k < 16 then setV ⟨k, h⟩ b s else s)

/-- Write of I (R33). -/
def setI (a : Word) (s : State) : State := { s with i := a }

/-- `pc <- target` (R34); the target is not checked here. -/
def setPc (a : Word) (s : State) : State := { s with pc := a }

/-- `skip()`: `pc <- (pc + 2) mod 2^16` (R9); also the advance of the fetch (R110). -/
def advancePc (s : State) : State := { s with pc := s.pc + 2 }

/-- `if c: skip()` (R143 to R146, R301, R302). -/
def skipIf (c : Bool) (s : State) : State := if c then advancePc s else s

/-- The address of the instruction that executes: pc has already advanced by 2 (R34, R110). -/
def instrAddr (s : State) : Word := s.pc - 2

/-! ### Taking a fault -/

/-- The codes of R330. -/
def FaultCause.code : FaultCause → Nat
  | .unimplementedOpcode _ => 1
  | .stackOverflow => 2
  | .stackUnderflow => 3
  | .addressOutOfRange _ => 4
  | .keyIndexOutOfRange _ => 5

/-- `raise F(info)` (R333) for the instruction at address `a`: the record is written, `run` becomes
FAULTED, nothing else changes. -/
def takeFault (c : FaultCause) (a : Word) (s : State) : State :=
  { s with fault := some { cause := c, faultPc := a }, run := .faulted }

/-- A fault raised while an instruction executes: `fault_pc` is its own address (R334). -/
def raise (c : FaultCause) (s : State) : Host.Outcome State Fault Refusal :=
  .next (takeFault c (instrAddr s) s)

/-- `Reset()` (R400), the only way to leave STOPPED or FAULTED. What belongs to the host (its queued
inputs, what it has received) and the free-value counter stay (log entry 16). -/
def resetBlock (s : State) : State :=
  { State.resetWith s.cfg with
    hostIn := s.hostIn
    entropyIn := s.entropyIn
    keysIn := s.keysIn
    displayOut := s.displayOut
    draws := s.draws }

/-- Check an instruction's addresses, then go on with the effective ones; the first out of range
raises `AddressOutOfRange` before anything is written (R335). -/
def withEffAddrs (s : State) (addrs : List Nat)
    (go : List Nat → Host.Outcome State Fault Refusal) : Host.Outcome State Fault Refusal :=
  match effAddrs s.cfg.rangePolicy addrs with
  | .error a => raise (.addressOutOfRange a) s
  | .ok as => go as

/-! ### Host inputs: entropy, keypad, free values -/

/-- `rand()` (R9, R348): the next queued byte, else a free value. -/
def takeEntropy (s : State) : Byte × State :=
  match s.entropyIn with
  | b :: rest => (b, { s with entropyIn := rest })
  | [] => (Config.freeEntropy s.draws, { s with draws := s.draws + 1 })

/-- The sixteen key levels at one keypad read (R347): the next queued levels, else a free value. -/
def takeKeys (s : State) : BitVec 16 × State :=
  match s.keysIn with
  | k :: rest => (k, { s with keysIn := rest })
  | [] => (Config.freeKeys s.draws, { s with draws := s.draws + 1 })

/-- The flag of 8xyE under `SOURCE_RIGHT`, "any value in {0, 1}" (R192). -/
def takeShlFlag (s : State) : Bool × State :=
  (Config.freeShlFlag s.draws, { s with draws := s.draws + 1 })

/-! ### Framebuffer -/

/-- `fb[row][col]`; off the screen there is no pixel and the answer is false. -/
def pixel (fb : Framebuffer) (row col : Nat) : Bool :=
  if h : row < 32 ∧ col < 64 then (fb[row]'h.1)[col]'h.2 else false

/-- A flip: XOR of one pixel with 1 (R271). -/
def flipPixel (fb : Framebuffer) (row col : Nat) : Framebuffer :=
  if h : row < 32 ∧ col < 64 then
    fb.set row ((fb[row]'h.1).set col (!((fb[row]'h.1)[col]'h.2)) h.2) h.1
  else fb

/-- Every pixel 0 (R272). -/
def clearedFb : Framebuffer := Vector.replicate 32 (Vector.replicate 64 false)

/-- An event to the renderer (R346). -/
def emit (e : DisplayEvent) (s : State) : State := { s with displayOut := s.displayOut ++ [e] }

/-! ### Status and inspection -/

/-- The host's status read: `run` and the fault record, at any time (R349). -/
def hostStatus (s : State) : RunState × Option FaultRecord := (s.run, s.fault)

/-- The host's inspection: all state, when STOPPED or FAULTED (R350). -/
def hostInspect (s : State) : Option State :=
  match s.run with
  | .stopped => some s
  | .faulted => some s
  | .awaitingLoad => none
  | .running => none

end Sys2Proof.Machine
end

