-- ==== Sys2Proof/Machine/Flags.lean ====
section
/-! DEFINITION. Every flag computation of the block (spec/10_state.md R32, spec/41_alu.md R193). The
one flag register is VF; a flag is 0 or 1. -/

namespace Sys2Proof.Machine

/-- A flag as VF holds it: 0 or 1 (R32). -/
def flagByte (f : Bool) : Byte := if f then 1 else 0

/-- Carry of 8xy4: the exact sum exceeds 255 (R188). -/
def carryFlag (a b : Byte) : Bool := decide (a.toNat + b.toNat > 255)

/-- No-borrow of `a - b`: strictly greater, so 0 on equal operands (R189, R191, C3). -/
def noBorrowFlag (a b : Byte) : Bool := decide (a.toNat > b.toNat)

/-- Bit 0, shifted out by 8xy6 (R190). -/
def bit0Flag (a : Byte) : Bool := a.getLsbD 0

/-- Bit 7, shifted out by 8xyE (R192). -/
def bit7Flag (a : Byte) : Bool := a.getLsbD 7

/-- Write VF as a flag (R32): overwritten, never accumulated. -/
def setFlag (f : Bool) (s : State) : State := setV regF (flagByte f) s

/-- Result to `V[x]`, then the flag, last: with x = F, VF ends as the flag (R10, D5). -/
def setResultAndFlag (x : Reg) (result : Byte) (f : Bool) (s : State) : State :=
  setFlag f (setV x result s)

end Sys2Proof.Machine
end

