-- ==== Sys2Proof/Machine/Alu.lean ====
section
/-! DEFINITION. Register loads and the ALU (spec/41_alu.md R180 to R193): exact on natural numbers,
stored mod 256 (R180). All operands are read before any write (R10). -/

namespace Sys2Proof.Machine

/-- 6xnn `LD Vx, nn` (R182). -/
def execLdImm (x : Reg) (nn : Byte) (s : State) : Host.Outcome State Fault Refusal :=
  .next (setV x nn s)

/-- 7xnn `ADD Vx, nn` (R183): no flag. -/
def execAddImm (x : Reg) (nn : Byte) (s : State) : Host.Outcome State Fault Refusal :=
  .next (setV x (BitVec.ofNat 8 ((getV s x).toNat + nn.toNat)) s)

/-- 8xy0 `LD Vx, Vy` (R184). -/
def execLdReg (x y : Reg) (s : State) : Host.Outcome State Fault Refusal :=
  .next (setV x (getV s y) s)

/-- 8xy1 `OR Vx, Vy` (R185): VF is not reset. -/
def execOrReg (x y : Reg) (s : State) : Host.Outcome State Fault Refusal :=
  .next (setV x (getV s x ||| getV s y) s)

/-- 8xy2 `AND Vx, Vy` (R186): VF is not reset. -/
def execAndReg (x y : Reg) (s : State) : Host.Outcome State Fault Refusal :=
  .next (setV x (getV s x &&& getV s y) s)

/-- 8xy3 `XOR Vx, Vy` (R187): VF is not reset. -/
def execXorReg (x y : Reg) (s : State) : Host.Outcome State Fault Refusal :=
  .next (setV x (getV s x ^^^ getV s y) s)

/-- 8xy4 `ADD Vx, Vy` (R188): carry to VF. -/
def execAddReg (x y : Reg) (s : State) : Host.Outcome State Fault Refusal :=
  let a := getV s x
  let b := getV s y
  .next (setResultAndFlag x (BitVec.ofNat 8 (a.toNat + b.toNat)) (carryFlag a b) s)

/-- 8xy5 `SUB Vx, Vy` (R189): `(a + 256 - b) mod 256`, no-borrow to VF. -/
def execSubReg (x y : Reg) (s : State) : Host.Outcome State Fault Refusal :=
  let a := getV s x
  let b := getV s y
  .next (setResultAndFlag x (BitVec.ofNat 8 (a.toNat + 256 - b.toNat)) (noBorrowFlag a b) s)

/-- 8xy6 `SHR Vx` (R190): the y field is ignored. -/
def execShrReg (x : Reg) (_y : Reg) (s : State) : Host.Outcome State Fault Refusal :=
  let a := getV s x
  .next (setResultAndFlag x (a >>> 1) (bit0Flag a) s)

/-- 8xy7 `SUBN Vx, Vy` (R191): `(b - a) mod 256`, no-borrow to VF. -/
def execSubnReg (x y : Reg) (s : State) : Host.Outcome State Fault Refusal :=
  let a := getV s x
  let b := getV s y
  .next (setResultAndFlag x (BitVec.ofNat 8 (b.toNat + 256 - a.toNat)) (noBorrowFlag b a) s)

/-- 8xyE `SHL Vx` (R192): the y field is ignored; under `SOURCE_RIGHT` it shifts right and the flag is
a free value. -/
def execShlReg (x : Reg) (_y : Reg) (s : State) : Host.Outcome State Fault Refusal :=
  let a := getV s x
  match s.cfg.shlVariant with
  | .left => .next (setResultAndFlag x (a <<< 1) (bit7Flag a) s)
  | .sourceRight => .next (setResultAndFlag x (a >>> 1) (takeShlFlag s).1 (takeShlFlag s).2)

end Sys2Proof.Machine
end

