-- ==== Sys2Proof/Machine/Operands.lean ====
section
/-! DEFINITION. The operand forms: general registers (R103), zero-extended immediates (R102), the
index addresses I + k (R236), a sprite's origin and rows (R273), a key named by a register (R301). -/

namespace Sys2Proof.Machine

/-- `zext_16(nnn)` (R102). -/
def addrOperand (nnn : Nnn) : Word := nnn.zeroExtend 16

/-- The addresses I, I + 1, …, I + count - 1, unbounded (R236). -/
def indexAddrs (s : State) (count : Nat) : List Nat :=
  (List.range count).map fun k => s.i.toNat + k

/-- The values V0 to Vx (R234). -/
def regsUpTo (s : State) (x : Reg) : List Byte := s.v.toList.take (x.val + 1)

/-- `x0 = V[x] mod 64` (R273). -/
def originCol (s : State) (x : Reg) : Nat := (getV s x).toNat % displayW

/-- `y0 = V[y] mod 32` (R273). -/
def originRow (s : State) (y : Reg) : Nat := (getV s y).toNat % displayH

/-- `R = min(n, 32 - y0)`: the sprite rows that fall on the screen (R273). -/
def rowsOnScreen (s : State) (y : Reg) (n : Nat) : Nat := min n (displayH - originRow s y)

/-- Sprite bit at column offset `k` of a row byte: bit 7 - k (R270). -/
def spriteBit (b : Byte) (k : Nat) : Bool := b.getLsbD (7 - k)

/-- The key a register names (R301, U2): its value up to 15; beyond, nothing under `FAULT` and the
value mod 16 under `WRAP`. -/
def keyOperand (s : State) (x : Reg) : Option Nat :=
  let k := (getV s x).toNat
  if k ≤ 15 then some k
  else match s.cfg.rangePolicy with
    | .fault => none
    | .wrap => some (k % 16)

/-- `key(k)` among sampled levels (R9). -/
def keyLevel (levels : BitVec 16) (k : Nat) : Bool := levels.getLsbD k

end Sys2Proof.Machine
end

