-- ==== Sys2Proof/Machine/ControlFlow.lean ====
section
/-! DEFINITION. Control transfer (spec/40_control_flow.md R140 to R147). pc already holds the address
after the instruction when a meaning starts (R110). -/

namespace Sys2Proof.Machine

/-- 00EE `RET` (R140): pop; the popped entry is not cleared (D25). -/
def execRet (s : State) : Host.Outcome State Fault Refusal :=
  if h : s.sp.val = 0 then raise .stackUnderflow s
  else
    .next { s with
      sp := ⟨s.sp.val - 1, by omega⟩
      pc := s.stack[s.sp.val - 1]'(by omega) }

/-- 1nnn `JP nnn` (R141). -/
def execJp (nnn : Nnn) (s : State) : Host.Outcome State Fault Refusal :=
  .next (setPc (addrOperand nnn) s)

/-- 2nnn `CALL nnn` (R142): pushes pc, the address after the CALL. -/
def execCall (nnn : Nnn) (s : State) : Host.Outcome State Fault Refusal :=
  if h : s.sp.val = 16 then raise .stackOverflow s
  else
    .next { s with
      stack := s.stack.set s.sp.val s.pc (by omega)
      sp := ⟨s.sp.val + 1, by omega⟩
      pc := addrOperand nnn }

/-- 3xnn `SE Vx, nn` (R143). -/
def execSeImm (x : Reg) (nn : Byte) (s : State) : Host.Outcome State Fault Refusal :=
  .next (skipIf (getV s x == nn) s)

/-- 4xnn `SNE Vx, nn` (R144). -/
def execSneImm (x : Reg) (nn : Byte) (s : State) : Host.Outcome State Fault Refusal :=
  .next (skipIf (getV s x != nn) s)

/-- 5xy0 `SE Vx, Vy` (R145). -/
def execSeReg (x y : Reg) (s : State) : Host.Outcome State Fault Refusal :=
  .next (skipIf (getV s x == getV s y) s)

/-- 9xy0 `SNE Vx, Vy` (R146). -/
def execSneReg (x y : Reg) (s : State) : Host.Outcome State Fault Refusal :=
  .next (skipIf (getV s x != getV s y) s)

/-- Bnnn `JP V0, nnn` (R147): not masked to 12 bits (D10). -/
def execJpV0 (nnn : Nnn) (s : State) : Host.Outcome State Fault Refusal :=
  .next (setPc (BitVec.ofNat 16 (nnn.toNat + (getV s 0).toNat)) s)

end Sys2Proof.Machine
end

