-- ==== Sys2Proof/Machine/Display.lean ====
section
/-! DEFINITION. The framebuffer XOR blit engine (spec/43_display.md R270 to R274): CLS and DRW. -/

namespace Sys2Proof.Machine

/-- One sprite bit: a set bit on the screen flips its pixel, and the flip of a set pixel is a
collision (R271, R273). The pair is the framebuffer and the collision so far. -/
def blitPixel (b : Byte) (row x0 k : Nat) (d : Framebuffer × Bool) : Framebuffer × Bool :=
  if spriteBit b k && decide (x0 + k < displayW) then
    (flipPixel d.1 row (x0 + k), d.2 || pixel d.1 row (x0 + k))
  else d

/-- One sprite row, its 8 bits from the leftmost on (R273). -/
def blitRow (b : Byte) (row x0 : Nat) (d : Framebuffer × Bool) : Framebuffer × Bool :=
  (List.range 8).foldl (fun d k => blitPixel b row x0 k d) d

/-- Sprite rows drawn downwards from a row (R273). -/
def blitRows (x0 : Nat) : Nat → List Byte → Framebuffer × Bool → Framebuffer × Bool
  | _, [], d => d
  | row, b :: bs, d => blitRows x0 (row + 1) bs (blitRow b row x0 d)

/-- 00E0 `CLS` (R272): every pixel 0, and one `clear()` to the renderer. -/
def execCls (s : State) : Host.Outcome State Fault Refusal :=
  .next (emit .clear { s with fb := clearedFb })

/-- Dxyn `DRW Vx, Vy, n` (R273): the origin wraps, drawing clips; the rows on the screen are read
and checked before VF or a pixel is written (D16), and the origin before VF (D4). -/
def execDrw (x y : Reg) (n : Nat) (s : State) : Host.Outcome State Fault Refusal :=
  withEffAddrs s (indexAddrs s (rowsOnScreen s y n)) fun as =>
    let d := blitRows (originCol s x) (originRow s y) (as.map (readByte s)) (s.fb, false)
    .next (setFlag d.2 { s with fb := d.1 })

end Sys2Proof.Machine
end

