-- ==== Sys2Proof/Machine/IndexMemory.lean ====
section
/-! DEFINITION. The index register and memory transfer (spec/42_index_memory.md R230 to R236). I is
never changed by a memory access (R236); every address is checked before anything is written. -/

namespace Sys2Proof.Machine

/-- Annn `LD I, nnn` (R230). -/
def execLdI (nnn : Nnn) (s : State) : Host.Outcome State Fault Refusal :=
  .next (setI (addrOperand nnn) s)

/-- Fx1E `ADD I, Vx` (R231): mod 2^16, no flag, no fault. -/
def execAddI (x : Reg) (s : State) : Host.Outcome State Fault Refusal :=
  .next (setI (BitVec.ofNat 16 (s.i.toNat + (getV s x).toNat)) s)

/-- Fx29 `LD F, Vx` (R232): Vx is not masked (D9). -/
def execLdF (x : Reg) (s : State) : Host.Outcome State Fault Refusal :=
  .next (setI (BitVec.ofNat 16 (fontBase + (getV s x).toNat * 5)) s)

/-- The three decimal digits of a byte: hundreds, tens, ones (R233). -/
def bcdDigits (v : Byte) : List Byte :=
  [BitVec.ofNat 8 (v.toNat / 100), BitVec.ofNat 8 (v.toNat / 10 % 10), BitVec.ofNat 8 (v.toNat % 10)]

/-- Fx33 `LD B, Vx` (R233): store the digits at I, I + 1, I + 2. -/
def execLdB (x : Reg) (s : State) : Host.Outcome State Fault Refusal :=
  withEffAddrs s (indexAddrs s 3) fun as =>
    .next (writeBytes (as.zip (bcdDigits (getV s x))) s)

/-- Fx55 `LD [I], Vx` (R234): store V0 to Vx from I on. -/
def execLdStore (x : Reg) (s : State) : Host.Outcome State Fault Refusal :=
  withEffAddrs s (indexAddrs s (x.val + 1)) fun as =>
    .next (writeBytes (as.zip (regsUpTo s x)) s)

/-- Fx65 `LD Vx, [I]` (R235): load V0 to Vx from I on. -/
def execLdLoad (x : Reg) (s : State) : Host.Outcome State Fault Refusal :=
  withEffAddrs s (indexAddrs s (x.val + 1)) fun as =>
    .next (loadRegsFrom 0 (as.map (readByte s)) s)

end Sys2Proof.Machine
end

