-- ==== Sys2Proof/Machine/RandomInput.lean ====
section
/-! DEFINITION. The instructions that read an input (spec/44_random_input.md R300 to R303). -/

namespace Sys2Proof.Machine

/-- Cxnn `RND Vx, nn` (R300): one fresh byte, masked. -/
def execRnd (x : Reg) (nn : Byte) (s : State) : Host.Outcome State Fault Refusal :=
  .next (setV x ((takeEntropy s).1 &&& nn) (takeEntropy s).2)

/-- The key test of SKP and SKNP (R301, R302): the named key is sampled once and the skip is taken
when its level is `want`. -/
def skipOnKey (x : Reg) (want : Bool) (s : State) : Host.Outcome State Fault Refusal :=
  match keyOperand s x with
  | none => raise (.keyIndexOutOfRange (getV s x)) s
  | some k => .next (skipIf (keyLevel (takeKeys s).1 k == want) (takeKeys s).2)

/-- Ex9E `SKP Vx` (R301): skip if the key is pressed. -/
def execSkp (x : Reg) (s : State) : Host.Outcome State Fault Refusal := skipOnKey x true s

/-- ExA1 `SKNP Vx` (R302): skip if the key is not pressed. -/
def execSknp (x : Reg) (s : State) : Host.Outcome State Fault Refusal := skipOnKey x false s

end Sys2Proof.Machine
end

