-- ==== Sys2Proof/Machine/Cycle.lean ====
section
/-! DEFINITION. The instruction cycle (spec/30_encoding.md R110) and its fetch (spec/20_memory.md R74). -/

namespace Sys2Proof.Machine

/-- The two effective addresses of the fetch, checked in order, pc first (R74, R337). -/
def fetchAddrs (s : State) : Except Nat (List Nat) :=
  effAddrs s.cfg.rangePolicy [s.pc.toNat, s.pc.toNat + 1]

/-- The word at the two bytes of the fetch, the first in bits 15:8 (R74); an error is the first
out-of-range address. -/
def fetch16 (s : State) : Except Nat Word :=
  match fetchAddrs s with
  | .error a => .error a
  | .ok as => .ok (wordOfBytes (readByte s (as.getD 0 0)) (readByte s (as.getD 1 0)))

/-- `CpuStep()` (R110): fetch, advance the pc, decode, execute. A fetch fault comes before the
advance, so pc still holds A; every other fault after it (R334). -/
def cpuStep (s : State) : Host.Outcome State Fault Refusal :=
  match fetch16 s with
  | .error a => .next (takeFault (.addressOutOfRange a) s.pc s)
  | .ok w =>
    match decodeWord w with
    | none => raise (.unimplementedOpcode w) (advancePc s)
    | some i => exec i (advancePc s)

/-- Where a word for the next fetch goes: the pc if both its bytes can be fetched, else 0x200. -/
def placePc (s : State) : Word :=
  match fetchAddrs s with
  | .ok _ => s.pc
  | .error _ => 0x200

/-- A RUNNING state whose next fetch reads the word `w`: the bytes stand at the pc, no fault is
recorded and no host action is pending, so that the next step is a CPU step (log entry 13). -/
def placeWord (w : Word) (s : State) : State :=
  let s := { s with pc := placePc s, run := .running, fault := none, hostIn := [] }
  match fetchAddrs s with
  | .error _ => s
  | .ok as => writeBytes (as.zip [highByte w, lowByte w]) s

end Sys2Proof.Machine
end

