-- ==== Sys2Proof/Machine/Scheduler.lean ====
section
/-! DEFINITION. The real-time scheduler (spec/60_exceptions.md R343 to R345), the timers (R340), the
program load (spec/70_reset_and_hazards.md R402) and the host's actions (R349). -/

namespace Sys2Proof.Machine

/-- Go on in a RUNNING block; a block that does not run takes no step (R110, R339, R345, R402). -/
def whenRunning (s : State) (go : State → Host.Outcome State Fault Refusal) :
    Host.Outcome State Fault Refusal :=
  match s.run with
  | .running => go s
  | .awaitingLoad => .fault .noProgramLoaded
  | .stopped => .fault .blockStopped
  | .faulted => .fault (.blockFaulted s.fault)

/-- One timer at a frame tick: minus one, floor at 0 (R340). -/
def decrementTimer (t : Byte) : Byte := if t.toNat > 0 then t - 1 else 0

/-- `FrameTimers()` (R340). -/
def frameTimers (s : State) : State :=
  { s with dt := decrementTimer s.dt, st := decrementTimer s.st }

/-- The step interval `1/IPS`, seconds (R407). -/
def stepInterval (c : Config) : Rat := 1 / c.ips

/-- The frame interval `1/FRAME_RATE`, seconds (R407). -/
def frameInterval (c : Config) : Rat := 1 / c.frameRate

/-- Elapsed time added to both accumulators (R343). -/
def accumulate (elapsed : Rat) (s : State) : State :=
  { s with
    sinceLastStep := s.sinceLastStep + elapsed
    sinceLastFrame := s.sinceLastFrame + elapsed }

/-- The step half of an iteration: at most one CPU step, then one interval subtracted; a fault ends
the iteration before the subtraction (R343, R333). -/
def stepPhase (s : State) : Host.Outcome State Fault Refusal :=
  if stepInterval s.cfg ≤ s.sinceLastStep then
    match cpuStep s with
    | .next t =>
      if t.run = .running then
        .next { t with sinceLastStep := t.sinceLastStep - stepInterval t.cfg }
      else .next t
    | .fault f => .fault f
    | .refused r => .refused r
  else .next s

/-- The frame tick: present the framebuffer, count the timers down, subtract one interval (R343). -/
def frameTick (s : State) : State :=
  let s := frameTimers (emit (.present s.fb) s)
  { s with sinceLastFrame := s.sinceLastFrame - frameInterval s.cfg }

/-- The frame half of an iteration: at most one tick (R343). -/
def framePhase (s : State) : State :=
  if frameInterval s.cfg ≤ s.sinceLastFrame then frameTick s else s

/-- `SchedulerIteration(elapsed, quit)` in a RUNNING block (R343, R345): the quit first, then the
step, then the tick unless the step faulted (R333). -/
def schedulerIteration (elapsed : Rat) (quit : Bool) (s : State) : Host.Outcome State Fault Refusal :=
  if quit then .next { s with run := .stopped }
  else
    match stepPhase (accumulate elapsed s) with
    | .next t => if t.run = .running then .next (framePhase t) else .next t
    | .fault f => .fault f
    | .refused r => .refused r

/-- `bytes` at 0x200, 0x201, … (R402). -/
def romCells (bytes : List Byte) : List (Nat × Byte) :=
  ((List.range bytes.length).map fun k => progBase + k).zip bytes

/-- `LoadProgram(bytes)` (R402): on an error nothing is written and the block does not run. -/
def loadProgram (bytes : List Byte) (s : State) : State :=
  if bytes.length = 0 then { s with load := some .empty }
  else if bytes.length > maxRom then { s with load := some .tooLarge }
  else { writeBytes (romCells bytes) s with run := .running, load := some .ok }

/-- One action of the host (R349). There is one load per reset (D24), and an iteration exists only
while the block runs (R343). -/
def hostStep (e : HostEvent) (s : State) : Host.Outcome State Fault Refusal :=
  match e with
  | .reset => .next (resetBlock s)
  | .load bytes =>
    if s.run = .awaitingLoad ∧ s.load = none then .next (loadProgram bytes s)
    else .refused .secondLoad
  | .iteration elapsed quit => whenRunning s (schedulerIteration elapsed quit)

end Sys2Proof.Machine
end

