-- ==== Sys2Proof/Machine/Step.lean ====
section
/-! DEFINITION. The step: the oldest pending host action, or, with none pending, one CPU step of the
plain sequence that spec/60_exceptions.md R344 allows (log entry 2). -/

namespace Sys2Proof.Machine

/-- One step of the machine. -/
def step (s : State) : Host.Outcome State Fault Refusal :=
  match s.hostIn with
  | [] => whenRunning s cpuStep
  | e :: rest => hostStep e { s with hostIn := rest }

/-- The state with an instruction of `nbits` bits stored where `step` fetches next, and set to run it:
it stands for the program load of R402 (log entry 13). -/
def State.withFetchWord (s : State) (nbits w : Nat) : State :=
  placeWord (BitVec.ofNat 16 (w % 2 ^ nbits)) s

end Sys2Proof.Machine
end

