-- ==== Sys2Proof/Safety.lean ====
section
/-! DEFINITION. The terms claims are stated in: what stays unchanged (frames), which state components
an instruction may write, the invariant of the machine, and what a program can see of a state. -/

namespace Sys2Proof.Machine

/-! ### Frames -/

/-- Every general register but the listed ones is unchanged. -/
def sameRegsExcept (rs : List Reg) (s t : State) : Prop := ∀ r, r ∉ rs → getV t r = getV s r

/-- Every byte of memory reads as before, but for the listed addresses. -/
def sameMemoryExcept (as : List Nat) (s t : State) : Prop := ∀ a, a ∉ as → readByte t a = readByte s a

/-- Every byte of memory reads as before. -/
def sameMemory (s t : State) : Prop := ∀ a, readByte t a = readByte s a

/-- The call stack and its pointer are unchanged. -/
def sameStack (s t : State) : Prop := t.stack = s.stack ∧ t.sp = s.sp

/-- The framebuffer and the display port are unchanged. -/
def sameDisplay (s t : State) : Prop := t.fb = s.fb ∧ t.displayOut = s.displayOut

/-- No input is taken and no free value drawn. -/
def sameInputs (s t : State) : Prop :=
  t.entropyIn = s.entropyIn ∧ t.keysIn = s.keysIn ∧ t.draws = s.draws

/-- Timers, scheduler time, status, parameters and the host's queue are unchanged. -/
def sameRest (s t : State) : Prop :=
  t.dt = s.dt ∧ t.st = s.st ∧ t.sinceLastStep = s.sinceLastStep ∧ t.sinceLastFrame = s.sinceLastFrame ∧
  t.run = s.run ∧ t.fault = s.fault ∧ t.cfg = s.cfg ∧ t.load = s.load ∧ t.hostIn = s.hostIn

/-- Nothing changes but the listed registers. -/
def onlyRegsChange (rs : List Reg) (s t : State) : Prop :=
  sameRegsExcept rs s t ∧ t.i = s.i ∧ t.pc = s.pc ∧ sameStack s t ∧ sameMemory s t ∧
  sameDisplay s t ∧ sameInputs s t ∧ sameRest s t

/-- Nothing changes but pc. -/
def onlyPcChanges (s t : State) : Prop :=
  sameRegsExcept [] s t ∧ t.i = s.i ∧ sameStack s t ∧ sameMemory s t ∧
  sameDisplay s t ∧ sameInputs s t ∧ sameRest s t

/-- Nothing changes but I. -/
def onlyIndexChanges (s t : State) : Prop :=
  sameRegsExcept [] s t ∧ t.pc = s.pc ∧ sameStack s t ∧ sameMemory s t ∧
  sameDisplay s t ∧ sameInputs s t ∧ sameRest s t

/-- Nothing changes but the bytes at the listed addresses. -/
def onlyMemoryChanges (as : List Nat) (s t : State) : Prop :=
  sameRegsExcept [] s t ∧ t.i = s.i ∧ t.pc = s.pc ∧ sameStack s t ∧ sameMemoryExcept as s t ∧
  sameDisplay s t ∧ sameInputs s t ∧ sameRest s t

/-- `t` is `s` with a fault of an executing instruction taken: the record and `run`, nothing else
(R333, R334). -/
def faultTaken (c : FaultCause) (s t : State) : Prop :=
  t = { s with run := .faulted, fault := some { cause := c, faultPc := s.pc - 2 } }

/-! ### Encodings -/

/-- Every word of an opcode-map row decodes to the row's instruction (R104). -/
def rowDecodesTo (pattern mask : Word) (f : Word → Instr) : Prop :=
  ∀ w : Word, w &&& mask = pattern → decodeWord w = some (f w)

/-! ### Who writes what -/

/-- The registers V0 to Vx. -/
def regsThrough (x : Reg) : List Reg := (List.finRange 16).filter fun r => decide (r ≤ x)

/-- The registers an instruction writes as its destination (R31). -/
def destRegs : Instr → List Reg
  | .ldImm x _ => [x]
  | .addImm x _ => [x]
  | .ldReg x _ => [x]
  | .orReg x _ => [x]
  | .andReg x _ => [x]
  | .xorReg x _ => [x]
  | .addReg x _ => [x]
  | .subReg x _ => [x]
  | .shrReg x _ => [x]
  | .subnReg x _ => [x]
  | .shlReg x _ => [x]
  | .rnd x _ => [x]
  | .ldLoad x => regsThrough x
  | .cls => []
  | .ret => []
  | .jp _ => []
  | .call _ => []
  | .seImm _ _ => []
  | .sneImm _ _ => []
  | .seReg _ _ => []
  | .sneReg _ _ => []
  | .ldI _ => []
  | .jpV0 _ => []
  | .drw _ _ _ => []
  | .skp _ => []
  | .sknp _ => []
  | .addI _ => []
  | .ldF _ => []
  | .ldB _ => []
  | .ldStore _ => []

/-- The instructions that write VF as a flag (R32). -/
def writesFlag (i : Instr) : Prop :=
  ∃ x y n, i = .addReg x y ∨ i = .subReg x y ∨ i = .shrReg x y ∨ i = .subnReg x y ∨ i = .shlReg x y ∨
    i = .drw x y n

/-- The writers of I (R33). -/
def writesIndex (i : Instr) : Prop := ∃ nnn x, i = .ldI nnn ∨ i = .addI x ∨ i = .ldF x

/-- The instructions that touch the call stack (R38). -/
def touchesStack (i : Instr) : Prop := ∃ nnn, i = .call nnn ∨ i = .ret

/-- The writers of memory (R77). -/
def writesMemory (i : Instr) : Prop := ∃ x, i = .ldB x ∨ i = .ldStore x

/-- The writers of the framebuffer (R40). -/
def writesFramebuffer (i : Instr) : Prop := ∃ x y n, i = .cls ∨ i = .drw x y n

/-- The instructions that change pc beyond the fetch's advance (R35). -/
def transfersControl (i : Instr) : Prop :=
  ∃ x y nn nnn, i = .ret ∨ i = .jp nnn ∨ i = .call nnn ∨ i = .jpV0 nnn ∨ i = .seImm x nn ∨
    i = .sneImm x nn ∨ i = .seReg x y ∨ i = .sneReg x y ∨ i = .skp x ∨ i = .sknp x

/-- Faults that exist only under `RANGE_POLICY = FAULT` (R330). -/
def FaultCause.isRange (c : FaultCause) : Prop :=
  ∃ a v, c = .addressOutOfRange a ∨ c = .keyIndexOutOfRange v

/-! ### Runs of calls -/

/-- CALLs executed one after another, each from the state the last left. -/
def execCalls : List Nnn → State → Host.Outcome State Fault Refusal
  | [], s => .next s
  | nnn :: rest, s =>
    match exec (.call nnn) s with
    | .next t => execCalls rest t
    | .fault f => .fault f
    | .refused r => .refused r

/-! ### Sprites -/

/-- Whether a sprite whose on-screen rows are `bytes`, drawn from column `x0` and row `y0`, has a set
bit on the pixel (row, col); columns beyond 63 are clipped (R270, R273). -/
def spriteCovers (bytes : List Byte) (x0 y0 row col : Nat) : Bool :=
  decide (y0 ≤ row) && decide (x0 ≤ col) && decide (col < x0 + 8) && decide (col < displayW) &&
    spriteBit (bytes.getD (row - y0) 0) (col - x0)

/-- The bytes of a sprite's on-screen rows, at I, I + 1, … taken mod 4096, which for an address that
the check passes is its effective address (R72, R273). -/
def spriteBytes (s : State) (count : Nat) : List Byte :=
  (List.range count).map fun r => readByte s ((s.i.toNat + r) % memSize)

/-! ### What a program can see -/

/-- The state less what a program cannot observe: scheduler time, timers, the display port and the
host's queue (R341, R343, R344). -/
def programView (s : State) : State :=
  { s with sinceLastStep := 0, sinceLastFrame := 0, dt := 0, st := 0, displayOut := [], hostIn := [] }

/-! ### The invariant -/

/-- The host's pending iterations carry a non-negative elapsed time (R343). -/
def HostEvent.elapsedOk : HostEvent → Prop
  | .reset => True
  | .load _ => True
  | .iteration elapsed _ => 0 ≤ elapsed

/-- What every step keeps. -/
structure State.Inv (s : State) : Prop where
  /-- Memory is in canonical form, every listed address below 4096 (R70). -/
  mem_wf : Memory.wf s.cfg s.mem = true
  /-- The parameters are as R7 asks. -/
  cfg_wf : s.cfg.wf
  /-- The accumulators are non-negative (R43). -/
  step_time : 0 ≤ s.sinceLastStep
  /-- The accumulators are non-negative (R43). -/
  frame_time : 0 ≤ s.sinceLastFrame
  /-- Pending elapsed times are non-negative (R343). -/
  host_ok : ∀ e ∈ s.hostIn, e.elapsedOk
  /-- There is a fault record exactly when the block is FAULTED (R42). -/
  fault_iff : s.run = .faulted ↔ s.fault.isSome = true
  /-- The block has run since reset exactly when its load succeeded (R402). -/
  load_iff : s.run = .awaitingLoad ↔ s.load ≠ some .ok
  /-- The timers stay 0 from reset onward (R341). -/
  timers : s.dt = 0 ∧ s.st = 0

end Sys2Proof.Machine
end

