-- ==== Sys2Proof/Certificates/Slice0/Obligations.lean ====
section
/-! DEFINITION. The statements for the provers, from the numbered rules of spec/. A statement about
`exec` speaks of a state whose pc has already advanced past the instruction (R110). Each docstring
names the rule, or the decision D<n> of spec/92_eei_decisions.md or the log entry it rests on. -/

open Sys2Proof Sys2Proof.Machine

/-! ### Reset, load, invariant -/

/-- R400 and R45 for every setting of the parameters; the zeros are the spec's decision D6, `run` is
log entry 12. -/
def Obligations.ResetLeavesStatedValues : Prop :=
  ∀ c : Config,
    let s := State.resetWith c
    s.pc = 0x200 ∧ (∀ r, getV s r = 0) ∧ s.i = 0 ∧ (∀ k : Fin 16, s.stack[k] = 0) ∧ s.sp = 0 ∧
    s.dt = 0 ∧ s.st = 0 ∧ (∀ row col, pixel s.fb row col = false) ∧
    s.sinceLastStep = 0 ∧ s.sinceLastFrame = 0 ∧ s.fault = none ∧ s.run = .awaitingLoad ∧ s.cfg = c ∧
    (∀ d, d < 80 → readByte s (0x050 + d) = c.font.getD d 0) ∧
    (∀ a, (a < 0x050 ∨ 0x0A0 ≤ a) → readByte s a = 0)

/-- The invariant at reset. -/
def Obligations.ResetMeetsInvariant : Prop := State.reset.Inv

/-- The invariant is kept by every step from every state that has it. -/
def Obligations.StepKeepsInvariant : Prop :=
  ∀ s t : State, s.Inv → step s = .next t → t.Inv

/-- R402 (D24): the three answers of `LoadProgram`, and what each leaves; a block that is not awaiting
its load refuses (log entry 14). -/
def Obligations.LoadProgramAnswers : Prop :=
  ∀ (s : State) (bytes : List Byte) (rest : List HostEvent), s.hostIn = .load bytes :: rest →
    (s.run = .awaitingLoad → s.load = none →
      (bytes.length = 0 → step s = .next { s with hostIn := rest, load := some .empty }) ∧
      (3584 < bytes.length → step s = .next { s with hostIn := rest, load := some .tooLarge }) ∧
      (0 < bytes.length → bytes.length ≤ 3584 →
        ∃ t, step s = .next t ∧ t.run = .running ∧ t.load = some .ok ∧
          (∀ k, k < bytes.length → readByte t (0x200 + k) = bytes.getD k 0) ∧
          (∀ a, (a < 0x200 ∨ 0x200 + bytes.length ≤ a) → readByte t a = readByte s a) ∧
          t = { s with mem := t.mem, hostIn := rest, run := .running, load := some .ok })) ∧
    (s.run ≠ .awaitingLoad ∨ s.load ≠ none → step s = .refused .secondLoad)

/-- R339 and R400: reset leaves a FAULTED or STOPPED block at the reset values, and keeps what is the
host's (log entry 16). -/
def Obligations.ResetEventRestoresBlock : Prop :=
  ∀ (s : State) (rest : List HostEvent), s.hostIn = .reset :: rest →
    step s = .next { State.resetWith s.cfg with
      hostIn := rest, entropyIn := s.entropyIn, keysIn := s.keysIn,
      displayOut := s.displayOut, draws := s.draws }

/-- R110, R339, R345: a block that does not run takes no CPU step and no scheduler iteration. -/
def Obligations.HaltedBlockTakesNoStep : Prop :=
  ∀ s : State, (s.hostIn = [] ∨ ∃ e q rest, s.hostIn = .iteration e q :: rest) →
    (s.run = .awaitingLoad → step s = .fault .noProgramLoaded) ∧
    (s.run = .stopped → step s = .fault .blockStopped) ∧
    (s.run = .faulted → step s = .fault (.blockFaulted s.fault))

/-- R44: the parameters are fixed for a run. -/
def Obligations.StepKeepsParameters : Prop :=
  ∀ s t : State, step s = .next t → t.cfg = s.cfg

/-! ### Encoding and the instruction cycle -/

/-- Decode and encode agree, on words and on bytes in memory order, for every well-formed instruction. -/
def Obligations.DecodeOfEncodeIsIdentity : Prop :=
  ∀ i : Instr, i.wellFormed = true →
    decodeWord (encode i) = some i ∧
    ∀ rest, decode (encodeBytes i ++ rest) = .ok (i, rest)

/-- The other direction: a word that decodes is the encoding of its instruction, so no bit of an
implemented word is dropped, and the instruction is well formed. -/
def Obligations.EncodeOfDecodeIsIdentity : Prop :=
  ∀ (w : Word) (i : Instr), decodeWord w = some i → encode i = w ∧ i.wellFormed = true

/-- R104: the opcode map, its rows and their fields; at most one row matches a word; a word of no row has
no instruction; and the y field of 8xy6 and 8xyE is free and unused. -/
def Obligations.DecodeFollowsOpcodeMap : Prop :=
  (∀ row ∈ opcodeTable, rowDecodesTo row.pattern row.mask row.build) ∧
  (∀ w : Word, (∀ row ∈ opcodeTable, w &&& row.mask ≠ row.pattern) → decodeWord w = none) ∧
  opcodeTable.Pairwise (fun r r' => ∀ w : Word, ¬ (w &&& r.mask = r.pattern ∧ w &&& r'.mask = r'.pattern)) ∧
  (∀ (x y y' : Reg) (s : State), exec (.shrReg x y) s = exec (.shrReg x y') s ∧
    exec (.shlReg x y) s = exec (.shlReg x y') s)

/-- Words written out from the patterns of R104, one of each family and three unimplemented ones. -/
def Obligations.SampleWordsDecode : Prop :=
  decodeWord 0b0000000011100000#16 = some .cls ∧
  decodeWord 0b0001001000110100#16 = some (.jp 0x234#12) ∧
  decodeWord 0b0011001101000010#16 = some (.seImm 3 0x42#8) ∧
  decodeWord 0b1000000100100100#16 = some (.addReg 1 2) ∧
  decodeWord 0b1101000100100011#16 = some (.drw 1 2 3) ∧
  decodeWord 0b1110001010011110#16 = some (.skp 2) ∧
  decodeWord 0b1111001001010101#16 = some (.ldStore 2) ∧
  decodeWord 0x0000#16 = none ∧ decodeWord 0x5121#16 = none ∧ decodeWord 0xF00A#16 = none

/-- R110 and R74: with no host action pending, a step of a RUNNING block is `exec` of the instruction
decoded from the big-endian bytes at the effective addresses of pc and pc + 1, after pc has advanced
by 2. -/
def Obligations.StepRunsDecodedInstruction : Prop :=
  ∀ (s : State) (a0 a1 : Nat) (i : Instr), s.run = .running → s.hostIn = [] →
    effAddr s.cfg.rangePolicy s.pc.toNat = .ok a0 →
    effAddr s.cfg.rangePolicy (s.pc.toNat + 1) = .ok a1 →
    decodeWord (readByte s a0 ++ readByte s a1) = some i →
    step s = exec i { s with pc := s.pc + 2 }

/-- R105, R331, R334 (D2): a word of no row faults with the word, pc at A + 2, `fault_pc` at A, and
nothing else changed. -/
def Obligations.UnimplementedWordFaults : Prop :=
  ∀ (s : State) (w : Word), s.run = .running → s.hostIn = [] → fetch16 s = .ok w →
    decodeWord w = none →
    step s = .next { s with
      pc := s.pc + 2, run := .faulted,
      fault := some { cause := .unimplementedOpcode w, faultPc := s.pc } }

/-- R74, R334, R337 (D1, D2): under `FAULT`, a fetch at or beyond 0x0FFF faults on the first address
out of range, before pc advances. -/
def Obligations.FetchOutOfRangeFaults : Prop :=
  ∀ s : State, s.run = .running → s.hostIn = [] → s.cfg.rangePolicy = .fault → 0x0FFF ≤ s.pc.toNat →
    step s = .next { s with
      run := .faulted,
      fault := some { cause := .addressOutOfRange (max s.pc.toNat 0x1000), faultPc := s.pc } }

/-- R83 (D15): the two bytes Fx55 stores where the pc stands are the next word fetched, the first byte
in bits 15:8 (R75). -/
def Obligations.StoreIsSeenByNextFetch : Prop :=
  ∀ (s t : State) (a0 a1 : Nat), s.i = s.pc →
    effAddr s.cfg.rangePolicy s.pc.toNat = .ok a0 →
    effAddr s.cfg.rangePolicy (s.pc.toNat + 1) = .ok a1 →
    exec (.ldStore 1) s = .next t → fetch16 t = .ok (getV s 0 ++ getV s 1)

/-- The host's word placement: from every state, the next step runs the placed word, from the state's
own registers (log entry 13). -/
def Obligations.WithFetchWordIsRunNext : Prop :=
  ∀ (s : State) (w : Nat) (i : Instr), decodeWord (BitVec.ofNat 16 w) = some i → w < 65536 →
    ∃ u, step (s.withFetchWord 16 w) = exec i u ∧ u.run = .running ∧ u.fault = none ∧
      u.v = s.v ∧ u.i = s.i ∧ u.stack = s.stack ∧ u.sp = s.sp ∧ u.fb = s.fb ∧ u.cfg = s.cfg ∧
      (s.pc.toNat + 1 < 0x1000 → u.pc = s.pc + 2)

/-! ### Control transfer -/

/-- R141. -/
def Obligations.JumpSetsPc : Prop :=
  rowDecodesTo 0x1000 0xF000 (fun w => .jp (nnnField w)) ∧
  ∀ (nnn : Nnn) (s : State), ∃ t, exec (.jp nnn) s = .next t ∧
    t.pc = nnn.zeroExtend 16 ∧ onlyPcChanges s t

/-- R142 below the capacity (D3): the address after the CALL is pushed. -/
def Obligations.CallPushesReturnAddress : Prop :=
  ∀ (nnn : Nnn) (s : State), s.sp.val < 16 → ∃ t, exec (.call nnn) s = .next t ∧
    t.pc = nnn.zeroExtend 16 ∧ t.sp.val = s.sp.val + 1 ∧
    (∀ k : Fin 16, t.stack[k] = if k.val = s.sp.val then s.pc else s.stack[k]) ∧
    sameRegsExcept [] s t ∧ t.i = s.i ∧ sameMemory s t ∧ sameDisplay s t ∧ sameInputs s t ∧ sameRest s t

/-- R140 on a stack that is not empty (D3, D25): the top entry becomes the pc and is not cleared. -/
def Obligations.ReturnPopsTopEntry : Prop :=
  ∀ s : State, 0 < s.sp.val → ∃ t, exec .ret s = .next t ∧
    (∀ k : Fin 16, k.val + 1 = s.sp.val → t.pc = s.stack[k]) ∧ t.sp.val + 1 = s.sp.val ∧
    t.stack = s.stack ∧
    sameRegsExcept [] s t ∧ t.i = s.i ∧ sameMemory s t ∧ sameDisplay s t ∧ sameInputs s t ∧ sameRest s t

/-- R332: CALL on a full stack and RET on an empty one fault, and write neither the stack, sp nor pc. -/
def Obligations.StackGuardsFault : Prop :=
  (∀ (nnn : Nnn) (s : State), s.sp.val = 16 → ∃ t, exec (.call nnn) s = .next t ∧
    t.run = .faulted ∧ t.fault.map FaultRecord.cause = some .stackOverflow ∧
    t.stack = s.stack ∧ t.sp = s.sp ∧ t.pc = s.pc) ∧
  (∀ s : State, s.sp.val = 0 → ∃ t, exec .ret s = .next t ∧
    t.run = .faulted ∧ t.fault.map FaultRecord.cause = some .stackUnderflow ∧
    t.stack = s.stack ∧ t.sp = s.sp ∧ t.pc = s.pc)

/-- "CALL nnn then RET restores PC to the instruction following the CALL" (R142), whatever runs between
as long as the stack comes back as CALL left it. -/
def Obligations.CallThenReturnRestoresPc : Prop :=
  ∀ (nnn : Nnn) (s t u : State), s.sp.val < 16 → exec (.call nnn) s = .next t → sameStack t u →
    ∃ w, exec .ret u = .next w ∧ w.pc = s.pc ∧ w.sp = s.sp

/-- "16 nested CALLs succeed; a 17th fails with `StackOverflow`" (R142, R37, D3). -/
def Obligations.SixteenNestedCallsFit : Prop :=
  ∀ (targets : List Nnn) (last : Nnn) (s : State), targets.length = 16 → s.sp.val = 0 →
    ∃ t, execCalls targets s = .next t ∧ t.sp.val = 16 ∧ t.run = s.run ∧ t.fault = s.fault ∧
      ∃ u, exec (.call last) t = .next u ∧ faultTaken .stackOverflow t u

/-- R143 to R146. -/
def Obligations.SkipsCompareAndSkip : Prop :=
  (rowDecodesTo 0x3000 0xF000 (fun w => .seImm (xField w) (nnField w)) ∧
   rowDecodesTo 0x4000 0xF000 (fun w => .sneImm (xField w) (nnField w)) ∧
   rowDecodesTo 0x5000 0xF00F (fun w => .seReg (xField w) (yField w)) ∧
   rowDecodesTo 0x9000 0xF00F (fun w => .sneReg (xField w) (yField w))) ∧
  (∀ (x : Reg) (nn : Byte) (s : State), ∃ t, exec (.seImm x nn) s = .next t ∧
    t.pc = (if getV s x = nn then s.pc + 2 else s.pc) ∧ onlyPcChanges s t) ∧
  (∀ (x : Reg) (nn : Byte) (s : State), ∃ t, exec (.sneImm x nn) s = .next t ∧
    t.pc = (if getV s x = nn then s.pc else s.pc + 2) ∧ onlyPcChanges s t) ∧
  (∀ (x y : Reg) (s : State), ∃ t, exec (.seReg x y) s = .next t ∧
    t.pc = (if getV s x = getV s y then s.pc + 2 else s.pc) ∧ onlyPcChanges s t) ∧
  (∀ (x y : Reg) (s : State), ∃ t, exec (.sneReg x y) s = .next t ∧
    t.pc = (if getV s x = getV s y then s.pc else s.pc + 2) ∧ onlyPcChanges s t)

/-- R147 (D10): the sum is exact, not masked to 12 bits. -/
def Obligations.JumpV0AddsExactly : Prop :=
  ∀ (nnn : Nnn) (s : State), ∃ t, exec (.jpV0 nnn) s = .next t ∧
    t.pc.toNat = nnn.toNat + (getV s 0).toNat ∧ onlyPcChanges s t

/-! ### Register loads and the ALU -/

/-- R182, R183, R184. -/
def Obligations.RegisterLoadsAndAddImmediate : Prop :=
  (rowDecodesTo 0x6000 0xF000 (fun w => .ldImm (xField w) (nnField w)) ∧
   rowDecodesTo 0x7000 0xF000 (fun w => .addImm (xField w) (nnField w)) ∧
   rowDecodesTo 0x8000 0xF00F (fun w => .ldReg (xField w) (yField w))) ∧
  (∀ (x : Reg) (nn : Byte) (s : State), ∃ t, exec (.ldImm x nn) s = .next t ∧
    getV t x = nn ∧ onlyRegsChange [x] s t) ∧
  (∀ (x : Reg) (nn : Byte) (s : State), ∃ t, exec (.addImm x nn) s = .next t ∧
    (getV t x).toNat = ((getV s x).toNat + nn.toNat) % 256 ∧ onlyRegsChange [x] s t) ∧
  (∀ (x y : Reg) (s : State), ∃ t, exec (.ldReg x y) s = .next t ∧
    getV t x = getV s y ∧ onlyRegsChange [x] s t)

/-- R185, R186, R187, bit by bit; VF is not reset. -/
def Obligations.LogicIsBitwiseWithoutFlag : Prop :=
  (rowDecodesTo 0x8001 0xF00F (fun w => .orReg (xField w) (yField w)) ∧
   rowDecodesTo 0x8002 0xF00F (fun w => .andReg (xField w) (yField w)) ∧
   rowDecodesTo 0x8003 0xF00F (fun w => .xorReg (xField w) (yField w))) ∧
  (∀ (x y : Reg) (s : State), ∃ t, exec (.orReg x y) s = .next t ∧
    (∀ k, (getV t x).getLsbD k = ((getV s x).getLsbD k || (getV s y).getLsbD k)) ∧
    onlyRegsChange [x] s t) ∧
  (∀ (x y : Reg) (s : State), ∃ t, exec (.andReg x y) s = .next t ∧
    (∀ k, (getV t x).getLsbD k = ((getV s x).getLsbD k && (getV s y).getLsbD k)) ∧
    onlyRegsChange [x] s t) ∧
  (∀ (x y : Reg) (s : State), ∃ t, exec (.xorReg x y) s = .next t ∧
    (∀ k, (getV t x).getLsbD k = ((getV s x).getLsbD k ^^ (getV s y).getLsbD k)) ∧
    onlyRegsChange [x] s t)

/-- R188, R189, R191: results mod 256, exact carry and strict no-borrow; with x = F, VF ends as the
flag (D5). -/
def Obligations.AddAndSubtractWithFlag : Prop :=
  ∀ (x y : Reg) (s : State),
    let a := (getV s x).toNat
    let b := (getV s y).toNat
    (∃ t, exec (.addReg x y) s = .next t ∧
      (x ≠ 15 → (getV t x).toNat = (a + b) % 256) ∧
      getV t 15 = (if 255 < a + b then 1 else 0) ∧ onlyRegsChange [x, 15] s t) ∧
    (∃ t, exec (.subReg x y) s = .next t ∧
      (x ≠ 15 → ((getV t x).toNat : Int) = ((a : Int) - b) % 256) ∧
      getV t 15 = (if b < a then 1 else 0) ∧ onlyRegsChange [x, 15] s t) ∧
    (∃ t, exec (.subnReg x y) s = .next t ∧
      (x ≠ 15 → ((getV t x).toNat : Int) = ((b : Int) - a) % 256) ∧
      getV t 15 = (if a < b then 1 else 0) ∧ onlyRegsChange [x, 15] s t)

/-- R190, and R192 under `LEFT` (D8), by value and by the bit shifted out; with x = F, VF ends as the
flag (D5). -/
def Obligations.ShiftsByOneWithFlag : Prop :=
  ∀ (x y : Reg) (s : State),
    let a := (getV s x).toNat
    (∃ t, exec (.shrReg x y) s = .next t ∧
      (x ≠ 15 → (getV t x).toNat = a / 2) ∧
      (getV t 15).toNat = a % 2 ∧ onlyRegsChange [x, 15] s t) ∧
    (s.cfg.shlVariant = .left → ∃ t, exec (.shlReg x y) s = .next t ∧
      (x ≠ 15 → (getV t x).toNat = 2 * a % 256) ∧
      (getV t 15).toNat = a / 128 ∧ onlyRegsChange [x, 15] s t)

/-- R192 under `SOURCE_RIGHT` (D8): a right shift, VF any value in {0, 1} (log entry 8), one free value
drawn. -/
def Obligations.SourceRightShlShiftsRight : Prop :=
  ∀ (x y : Reg) (s : State), s.cfg.shlVariant = .sourceRight →
    ∃ t, exec (.shlReg x y) s = .next t ∧
      (x ≠ 15 → (getV t x).toNat = (getV s x).toNat / 2) ∧ (getV t 15).toNat ≤ 1 ∧
      sameRegsExcept [x, 15] s t ∧ t.i = s.i ∧ t.pc = s.pc ∧ sameStack s t ∧ sameMemory s t ∧
      sameDisplay s t ∧ sameRest s t ∧
      t.entropyIn = s.entropyIn ∧ t.keysIn = s.keysIn ∧ t.draws = s.draws + 1

/-- Which instructions write VF as a flag, that they write 0 or 1, that a flag write overwrites (the new
VF does not depend on the old one, unless VF is an operand), and that every other instruction leaves VF
unchanged unless VF is its destination. After R32; the first clause at x = F rests on the spec's decision
D5 (the flag is written last), the second for 8xyE under `SOURCE_RIGHT` on D8 and on the model's choice of
log entry 8 (the free flag depends on the draw counter alone). -/
def Obligations.FlagRegisterDiscipline : Prop :=
  (∀ (i : Instr) (s t : State), writesFlag i → s.run = .running → exec i s = .next t →
    t.run = .running → getV t 15 = 0 ∨ getV t 15 = 1) ∧
  (∀ (x y : Reg) (n : Nat) (i : Instr) (b : Byte) (s t : State), x ≠ 15 → y ≠ 15 →
    i ∈ [.addReg x y, .subReg x y, .shrReg x y, .subnReg x y, .shlReg x y, .drw x y n] →
    s.run = .running → exec i s = .next t → t.run = .running →
    ∃ u, exec i (setV 15 b s) = .next u ∧ getV u 15 = getV t 15) ∧
  (∀ (i : Instr) (s t : State), ¬ writesFlag i → 15 ∉ destRegs i → exec i s = .next t →
    getV t 15 = getV s 15)

/-! ### Index register and memory -/

/-- R230. -/
def Obligations.LoadIndexImmediate : Prop :=
  rowDecodesTo 0xA000 0xF000 (fun w => .ldI (nnnField w)) ∧
  ∀ (nnn : Nnn) (s : State), ∃ t, exec (.ldI nnn) s = .next t ∧
    t.i = nnn.zeroExtend 16 ∧ onlyIndexChanges s t

/-- R231 and R232 (D9): mod 2^16 without a flag; the glyph address is not masked. -/
def Obligations.IndexArithmetic : Prop :=
  (∀ (x : Reg) (s : State), ∃ t, exec (.addI x) s = .next t ∧
    t.i.toNat = (s.i.toNat + (getV s x).toNat) % 65536 ∧ onlyIndexChanges s t) ∧
  (∀ (x : Reg) (s : State), ∃ t, exec (.ldF x) s = .next t ∧
    t.i.toNat = 0x050 + (getV s x).toNat * 5 ∧ onlyIndexChanges s t)

/-- R233 (D1): the digits at the effective addresses of I, I + 1, I + 2, and no other byte. -/
def Obligations.BcdStoresDigits : Prop :=
  ∀ (x : Reg) (s : State), s.cfg.rangePolicy = .wrap ∨ s.i.toNat + 3 ≤ 4096 →
    ∃ a0 a1 a2 t, effAddrs s.cfg.rangePolicy (indexAddrs s 3) = .ok [a0, a1, a2] ∧
      a0 = s.i.toNat % 4096 ∧ a1 = (s.i.toNat + 1) % 4096 ∧ a2 = (s.i.toNat + 2) % 4096 ∧
      exec (.ldB x) s = .next t ∧
      (readByte t a0).toNat = (getV s x).toNat / 100 ∧
      (readByte t a1).toNat = (getV s x).toNat / 10 % 10 ∧
      (readByte t a2).toNat = (getV s x).toNat % 10 ∧
      onlyMemoryChanges [a0, a1, a2] s t

/-- R234 (D1): V0 to Vx at the effective addresses of I, I + 1, …, and no other byte; I is unchanged. -/
def Obligations.StoreRegistersToMemory : Prop :=
  ∀ (x : Reg) (s : State), s.cfg.rangePolicy = .wrap ∨ s.i.toNat + x.val + 1 ≤ 4096 →
    ∃ as t, effAddrs s.cfg.rangePolicy (indexAddrs s (x.val + 1)) = .ok as ∧
      (∀ k : Reg, k ≤ x → as.getD k.val 0 = (s.i.toNat + k.val) % 4096) ∧
      exec (.ldStore x) s = .next t ∧
      (∀ k : Reg, k ≤ x → readByte t (as.getD k.val 0) = getV s k) ∧
      onlyMemoryChanges as s t

/-- R235 (D1): V0 to Vx from memory at I, I + 1, …; no other register, no byte and not I. -/
def Obligations.LoadRegistersFromMemory : Prop :=
  ∀ (x : Reg) (s : State), s.cfg.rangePolicy = .wrap ∨ s.i.toNat + x.val + 1 ≤ 4096 →
    ∃ t, exec (.ldLoad x) s = .next t ∧
      (∀ k : Reg, k ≤ x → getV t k = readByte s ((s.i.toNat + k.val) % 4096)) ∧
      onlyRegsChange (regsThrough x) s t

/-- R335, R233 to R235, R273 (D1, D2): under `FAULT`, an access beyond 0xFFF takes
`AddressOutOfRange` of the first such address, and writes nothing. -/
def Obligations.DataAddressOutOfRangeFaults : Prop :=
  ∀ s : State, s.cfg.rangePolicy = .fault →
    (∀ x : Reg, 4096 < s.i.toNat + 3 →
      ∃ t, exec (.ldB x) s = .next t ∧ faultTaken (.addressOutOfRange (max s.i.toNat 4096)) s t) ∧
    (∀ x : Reg, 4096 < s.i.toNat + x.val + 1 →
      (∃ t, exec (.ldStore x) s = .next t ∧ faultTaken (.addressOutOfRange (max s.i.toNat 4096)) s t) ∧
      (∃ t, exec (.ldLoad x) s = .next t ∧ faultTaken (.addressOutOfRange (max s.i.toNat 4096)) s t)) ∧
    (∀ (x y : Reg) (n : Nat),
      0 < min n (32 - (getV s y).toNat % 32) →
      4096 < s.i.toNat + min n (32 - (getV s y).toNat % 32) →
      ∃ t, exec (.drw x y n) s = .next t ∧ faultTaken (.addressOutOfRange (max s.i.toNat 4096)) s t)

/-- R330 (D1): under `WRAP` no step raises an address or key fault. -/
def Obligations.WrapRaisesNoRangeFault : Prop :=
  ∀ (s t : State) (r : FaultRecord), s.cfg.rangePolicy = .wrap → s.fault = none →
    step s = .next t → t.fault = some r → ¬ r.cause.isRange

/-! ### Display -/

/-- R272 (D21): every pixel 0, one `clear()` to the renderer, VF unchanged. -/
def Obligations.ClearScreenClearsAll : Prop :=
  ∀ s : State, ∃ t, exec .cls s = .next t ∧
    (∀ row col, pixel t.fb row col = false) ∧ t.displayOut = s.displayOut ++ [.clear] ∧
    sameRegsExcept [] s t ∧ t.i = s.i ∧ t.pc = s.pc ∧ sameStack s t ∧ sameMemory s t ∧
    sameInputs s t ∧ sameRest s t

/-- R273, R271 (D4, D16): pixel by pixel, DRW flips exactly the pixels under a set on-screen sprite
bit, and VF is 1 exactly when one of them was set; the origin comes from the old registers. -/
def Obligations.DrawFlipsSpritePixels : Prop :=
  ∀ (x y : Reg) (n : Nat) (s : State),
    let x0 := (getV s x).toNat % 64
    let y0 := (getV s y).toNat % 32
    let bytes := spriteBytes s (min n (32 - y0))
    s.cfg.rangePolicy = .wrap ∨ s.i.toNat + min n (32 - y0) ≤ 4096 ∨ n = 0 →
    ∃ t, exec (.drw x y n) s = .next t ∧
      (∀ row col, row < 32 → col < 64 →
        pixel t.fb row col = (pixel s.fb row col ^^ spriteCovers bytes x0 y0 row col)) ∧
      (getV t 15 = 0 ∨ getV t 15 = 1) ∧
      (getV t 15 = 1 ↔ ∃ row col, row < 32 ∧ col < 64 ∧
        pixel s.fb row col = true ∧ spriteCovers bytes x0 y0 row col = true) ∧
      sameRegsExcept [15] s t ∧ t.i = s.i ∧ t.pc = s.pc ∧ sameStack s t ∧ sameMemory s t ∧
      t.displayOut = s.displayOut ∧ sameInputs s t ∧ sameRest s t

/-- R274 items 1 and 2 (C6): the same DRW twice, from the same origin, leaves the framebuffer as it
was, and the second one collides exactly when the sprite has a set bit on a pixel that was 0 before. -/
def Obligations.DrawTwiceRestoresScreen : Prop :=
  ∀ (x y : Reg) (n : Nat) (s t u : State), x ≠ 15 → y ≠ 15 → s.run = .running →
    exec (.drw x y n) s = .next t → t.run = .running → exec (.drw x y n) t = .next u →
    u.fb = s.fb ∧
    (getV u 15 = 1 ↔ ∃ row col, row < 32 ∧ col < 64 ∧ pixel s.fb row col = false ∧
      spriteCovers (spriteBytes s (min n (32 - (getV s y).toNat % 32)))
        ((getV s x).toNat % 64) ((getV s y).toNat % 32) row col = true)

/-! ### Random byte and keypad -/

/-- R300 (D12): the byte the host queued, else an unconstrained one, masked. -/
def Obligations.RandomByteIsMasked : Prop :=
  ∀ (x : Reg) (nn : Byte) (s : State), ∃ t, exec (.rnd x nn) s = .next t ∧
    (∀ b rest, s.entropyIn = b :: rest →
      getV t x = b &&& nn ∧ t.entropyIn = rest ∧ t.draws = s.draws) ∧
    (s.entropyIn = [] →
      getV t x = Config.freeEntropy s.draws &&& nn ∧ t.entropyIn = [] ∧ t.draws = s.draws + 1) ∧
    getV t x &&& ~~~nn = 0 ∧
    sameRegsExcept [x] s t ∧ t.i = s.i ∧ t.pc = s.pc ∧ sameStack s t ∧ sameMemory s t ∧
    sameDisplay s t ∧ t.keysIn = s.keysIn ∧ sameRest s t

/-- R301 and R302 (D1, D13) on a key value up to 15, or any under `WRAP`: one sample of the levels, and
a skip when the named key is pressed (SKP) or not (SKNP). -/
def Obligations.KeySkipsFollowTheLevel : Prop :=
  ∀ (x : Reg) (s : State), (getV s x).toNat ≤ 15 ∨ s.cfg.rangePolicy = .wrap →
    ∃ (levels : BitVec 16) (t u : State),
      (∀ l rest, s.keysIn = l :: rest → levels = l ∧ t.keysIn = rest ∧ t.draws = s.draws) ∧
      (s.keysIn = [] → levels = Config.freeKeys s.draws ∧ t.keysIn = [] ∧ t.draws = s.draws + 1) ∧
      exec (.skp x) s = .next t ∧ exec (.sknp x) s = .next u ∧
      t.pc = (if levels.getLsbD ((getV s x).toNat % 16) then s.pc + 2 else s.pc) ∧
      u = { t with pc := if levels.getLsbD ((getV s x).toNat % 16) then s.pc else s.pc + 2 } ∧
      sameRegsExcept [] s t ∧ t.i = s.i ∧ sameStack s t ∧ sameMemory s t ∧ sameDisplay s t ∧
      t.entropyIn = s.entropyIn ∧ sameRest s t

/-- R336: under `FAULT` a key value above 15 faults with it, no key sampled (D1, D2). -/
def Obligations.KeyValueOutOfRangeFaults : Prop :=
  ∀ (x : Reg) (s : State), s.cfg.rangePolicy = .fault → 15 < (getV s x).toNat →
    (∃ t, exec (.skp x) s = .next t ∧ faultTaken (.keyIndexOutOfRange (getV s x)) s t) ∧
    (∃ t, exec (.sknp x) s = .next t ∧ faultTaken (.keyIndexOutOfRange (getV s x)) s t)

/-! ### Rules about every instruction -/

/-- No instruction of the map is refused or stops the machine: each has an effect, if only a fault
taken (R2, R333). -/
def Obligations.EveryInstructionAnswersNext : Prop :=
  ∀ (i : Instr) (s : State), ∃ t, exec i s = .next t ∧
    (t.run = s.run ∨ (t.run = .faulted ∧ t.fault.isSome = true))

/-- Who writes what: registers (R31, R32), I (R33), pc (R35, D10), the stack (R38), memory (R77), the
framebuffer (R40); timers, scheduler time, parameters and the host's queue are written by none. -/
def Obligations.OnlyTheListedWriters : Prop :=
  ∀ (i : Instr) (s t : State), exec i s = .next t →
    (∀ r, r ∉ destRegs i → (writesFlag i → r ≠ 15) → getV t r = getV s r) ∧
    (¬ writesIndex i → t.i = s.i) ∧
    (¬ transfersControl i → t.pc = s.pc) ∧
    (¬ touchesStack i → t.stack = s.stack ∧ t.sp = s.sp) ∧
    (¬ writesMemory i → sameMemory s t) ∧
    (¬ writesFramebuffer i → t.fb = s.fb) ∧
    (i ≠ .cls → t.displayOut = s.displayOut) ∧
    t.dt = s.dt ∧ t.st = s.st ∧ t.sinceLastStep = s.sinceLastStep ∧
    t.sinceLastFrame = s.sinceLastFrame ∧ t.cfg = s.cfg ∧ t.load = s.load ∧ t.hostIn = s.hostIn

/-- R333, R334 (D2): faults are precise. An instruction that ends FAULTED has written the record, with
its own address, and `run`; nothing else. -/
def Obligations.FaultsArePrecise : Prop :=
  ∀ (i : Instr) (s t : State), s.run = .running → exec i s = .next t → t.run = .faulted →
    ∃ c, faultTaken c s t

/-! ### Scheduler, timers, status -/

/-- R345: a quit at the start of an iteration stops the block; no step, no tick, no time added (D20). -/
def Obligations.QuitStopsTheBlock : Prop :=
  ∀ (s : State) (elapsed : Rat) (rest : List HostEvent), s.run = .running →
    s.hostIn = .iteration elapsed true :: rest →
    step s = .next { s with hostIn := rest, run := .stopped }

/-- R343: an iteration in which neither interval is complete only adds the elapsed time (D17). -/
def Obligations.IdleIterationAddsTime : Prop :=
  ∀ (s : State) (elapsed : Rat) (rest : List HostEvent), s.run = .running →
    s.hostIn = .iteration elapsed false :: rest →
    s.sinceLastStep + elapsed < 1 / s.cfg.ips → s.sinceLastFrame + elapsed < 1 / s.cfg.frameRate →
    step s = .next { s with
      hostIn := rest
      sinceLastStep := s.sinceLastStep + elapsed
      sinceLastFrame := s.sinceLastFrame + elapsed }

/-- R340, R343, R346: an iteration with a tick and no step presents the framebuffer, takes one from
each timer down to 0, and subtracts one frame interval (D11, D17, D21). -/
def Obligations.FrameTickPresentsAndCountsDown : Prop :=
  ∀ (s : State) (elapsed : Rat) (rest : List HostEvent), s.run = .running →
    s.hostIn = .iteration elapsed false :: rest →
    s.sinceLastStep + elapsed < 1 / s.cfg.ips → 1 / s.cfg.frameRate ≤ s.sinceLastFrame + elapsed →
    ∃ t, step s = .next t ∧
      t.dt.toNat = s.dt.toNat - 1 ∧ t.st.toNat = s.st.toNat - 1 ∧
      t = { s with
        hostIn := rest
        sinceLastStep := s.sinceLastStep + elapsed
        sinceLastFrame := s.sinceLastFrame + elapsed - 1 / s.cfg.frameRate
        dt := t.dt
        st := t.st
        displayOut := s.displayOut ++ [.present s.fb] }

/-- R343: an iteration with a step and no tick is one CPU step and one step interval subtracted; a
fault in it ends the iteration with the time added and nothing subtracted or ticked, whatever the
frame time (D17, log entry 23). -/
def Obligations.IterationRunsOneCpuStep : Prop :=
  ∀ (s u : State) (elapsed : Rat) (rest : List HostEvent), s.run = .running →
    s.hostIn = .iteration elapsed false :: rest →
    1 / s.cfg.ips ≤ s.sinceLastStep + elapsed →
    cpuStep { s with
      hostIn := rest
      sinceLastStep := s.sinceLastStep + elapsed
      sinceLastFrame := s.sinceLastFrame + elapsed } = .next u →
    (u.run = .faulted → step s = .next u) ∧
    (u.run = .running → s.sinceLastFrame + elapsed < 1 / s.cfg.frameRate →
      step s = .next { u with sinceLastStep := s.sinceLastStep + elapsed - 1 / s.cfg.ips }) ∧
    (u.run = .running → 1 / s.cfg.frameRate ≤ s.sinceLastFrame + elapsed →
      step s = .next { u with
        sinceLastStep := s.sinceLastStep + elapsed - 1 / s.cfg.ips
        sinceLastFrame := s.sinceLastFrame + elapsed - 1 / s.cfg.frameRate
        dt := BitVec.ofNat 8 (u.dt.toNat - 1)
        st := BitVec.ofNat 8 (u.st.toNat - 1)
        displayOut := u.displayOut ++ [.present u.fb] })

/-- R344: what a program can see after an iteration without a quit is what it saw before, or what one
plain CPU step makes of it, wherever the frame ticks fall; and a CPU step's effect on what a program
can see depends on nothing else. -/
def Obligations.ProgramCannotSeeTime : Prop :=
  (∀ (s : State) (elapsed : Rat) (rest : List HostEvent), s.run = .running →
    s.hostIn = .iteration elapsed false :: rest →
    ∃ t, step s = .next t ∧
      (programView t = programView s ∨
        ∃ u, cpuStep (programView s) = .next u ∧ programView t = programView u)) ∧
  (∀ s s' : State, programView s = programView s' →
    ∃ t t', cpuStep s = .next t ∧ cpuStep s' = .next t' ∧ programView t = programView t')
end

