-- ==== Sys2Proof/Laws/Decode.lean ====
section
/-! SUPPORT. The bits of encoded words, the fields they give back, and the masks of the opcode map in terms
of the fields. -/

namespace Sys2Proof

/-! ### Bits of encoded words -/

theorem getLsbD_encNnn (op : BitVec 4) (nnn : Nnn) (k : Nat) :
    (encNnn op nnn).getLsbD k = if k < 12 then nnn.getLsbD k else op.getLsbD (k - 12) :=
  BitVec.getLsbD_append

theorem getLsbD_encXnn (op : BitVec 4) (x : Reg) (nn : Byte) (k : Nat) :
    (encXnn op x nn).getLsbD k =
      if k < 12 then (if k < 8 then nn.getLsbD k else (regBits x).getLsbD (k - 8))
      else op.getLsbD (k - 12) := by
  refine (BitVec.getLsbD_append (x := op) (y := (regBits x ++ nn : BitVec 12))).trans ?_
  have h : (regBits x ++ nn).getLsbD k = _ := BitVec.getLsbD_append
  rw [← h]

theorem getLsbD_encXyn (op : BitVec 4) (x y : Reg) (n : BitVec 4) (k : Nat) :
    (encXyn op x y n).getLsbD k =
      if k < 12 then
        (if k < 8 then (if k < 4 then n.getLsbD k else (regBits y).getLsbD (k - 4))
          else (regBits x).getLsbD (k - 8))
      else op.getLsbD (k - 12) := by
  refine (BitVec.getLsbD_append (x := op) (y := (regBits x ++ (regBits y ++ n) : BitVec 12))).trans ?_
  have h : (regBits x ++ (regBits y ++ n : BitVec 8)).getLsbD k = _ :=
    BitVec.getLsbD_append (x := regBits x) (y := (regBits y ++ n : BitVec 8))
  have h' : (regBits y ++ n).getLsbD k = _ := BitVec.getLsbD_append
  rw [← h', ← h]

theorem getLsbD_wordOfBytes (b0 b1 : Byte) (k : Nat) :
    (wordOfBytes b0 b1).getLsbD k = if k < 8 then b1.getLsbD k else b0.getLsbD (k - 8) :=
  BitVec.getLsbD_append

/-! ### Fields of encoded words -/

@[simp] theorem opField_encNnn (op : BitVec 4) (nnn : Nnn) : opField (encNnn op nnn) = op := by
  refine BitVec.eq_of_getLsbD_eq fun k hk => ?_
  simp [opField, hk, getLsbD_encNnn]

@[simp] theorem nnnField_encNnn (op : BitVec 4) (nnn : Nnn) : nnnField (encNnn op nnn) = nnn := by
  refine BitVec.eq_of_getLsbD_eq fun k hk => ?_
  simp [nnnField, hk, getLsbD_encNnn]

@[simp] theorem opField_encXnn (op : BitVec 4) (x : Reg) (nn : Byte) : opField (encXnn op x nn) = op := by
  refine BitVec.eq_of_getLsbD_eq fun k hk => ?_
  simp [opField, hk, getLsbD_encXnn]

@[simp] theorem nnField_encXnn (op : BitVec 4) (x : Reg) (nn : Byte) : nnField (encXnn op x nn) = nn := by
  refine BitVec.eq_of_getLsbD_eq fun k hk => ?_
  have : k < 12 := by omega
  simp [nnField, hk, getLsbD_encXnn, this]

@[simp] theorem xField_encXnn (op : BitVec 4) (x : Reg) (nn : Byte) : xField (encXnn op x nn) = x := by
  have h : (encXnn op x nn).extractLsb' 8 4 = regBits x := by
    refine BitVec.eq_of_getLsbD_eq fun k hk => ?_
    have : 8 + k < 12 := by omega
    simp [hk, getLsbD_encXnn, this]
  rw [xField, h]
  rfl

@[simp] theorem opField_encXyn (op : BitVec 4) (x y : Reg) (n : BitVec 4) :
    opField (encXyn op x y n) = op := by
  refine BitVec.eq_of_getLsbD_eq fun k hk => ?_
  simp [opField, hk, getLsbD_encXyn]

@[simp] theorem nField_encXyn (op : BitVec 4) (x y : Reg) (n : BitVec 4) :
    nField (encXyn op x y n) = n := by
  refine BitVec.eq_of_getLsbD_eq fun k hk => ?_
  have : k < 12 := by omega
  have : k < 8 := by omega
  simp [nField, getLsbD_encXyn, *]

@[simp] theorem yField_encXyn (op : BitVec 4) (x y : Reg) (n : BitVec 4) :
    yField (encXyn op x y n) = y := by
  have h : (encXyn op x y n).extractLsb' 4 4 = regBits y := by
    refine BitVec.eq_of_getLsbD_eq fun k hk => ?_
    have : 4 + k < 12 := by omega
    have : 4 + k < 8 := by omega
    simp [getLsbD_encXyn, *]
  rw [yField, h]
  rfl

@[simp] theorem xField_encXyn (op : BitVec 4) (x y : Reg) (n : BitVec 4) :
    xField (encXyn op x y n) = x := by
  have h : (encXyn op x y n).extractLsb' 8 4 = regBits x := by
    refine BitVec.eq_of_getLsbD_eq fun k hk => ?_
    have : 8 + k < 12 := by omega
    simp [getLsbD_encXyn, *]
  rw [xField, h]
  rfl

/-! ### Bytes of words -/

@[simp] theorem wordOfBytes_high_low (w : Word) : wordOfBytes (highByte w) (lowByte w) = w := by
  refine BitVec.eq_of_getLsbD_eq fun k hk => ?_
  rw [getLsbD_wordOfBytes]
  split
  · rename_i h
    simp [lowByte, h]
  · have h1 : k - 8 < 8 := by omega
    have h2 : 8 + (k - 8) = k := by omega
    simp [highByte, h1, h2]

@[simp] theorem highByte_wordOfBytes (b0 b1 : Byte) : highByte (wordOfBytes b0 b1) = b0 := by
  refine BitVec.eq_of_getLsbD_eq fun k hk => ?_
  simp [highByte, hk, getLsbD_wordOfBytes]

@[simp] theorem lowByte_wordOfBytes (b0 b1 : Byte) : lowByte (wordOfBytes b0 b1) = b1 := by
  refine BitVec.eq_of_getLsbD_eq fun k hk => ?_
  simp [lowByte, hk, getLsbD_wordOfBytes]

/-! ### Masks -/

/-- A word under a mask with nibble `0xF` on `op` has the pattern's `op`. -/
theorem opField_of_mask {w mask pattern : Word} (h : w &&& mask = pattern) (hm : opField mask = 0xF#4) :
    opField w = opField pattern := by
  have h' := congrArg opField h
  unfold opField at *
  rw [BitVec.extractLsb'_and, hm] at h'
  exact (BitVec.and_allOnes (x := w.extractLsb' 12 4)).symm.trans h'

/-- A word under a mask with nibble `0xF` on `n` has the pattern's `n`. -/
theorem nField_of_mask {w mask pattern : Word} (h : w &&& mask = pattern) (hm : nField mask = 0xF#4) :
    nField w = nField pattern := by
  have h' := congrArg nField h
  unfold nField at *
  rw [BitVec.extractLsb'_and, hm] at h'
  exact (BitVec.and_allOnes (x := w.extractLsb' 0 4)).symm.trans h'

/-- A word under a mask with byte `0xFF` on `nn` has the pattern's `nn`. -/
theorem nnField_of_mask {w mask pattern : Word} (h : w &&& mask = pattern) (hm : nnField mask = 0xFF#8) :
    nnField w = nnField pattern := by
  have h' := congrArg nnField h
  unfold nnField at *
  rw [BitVec.extractLsb'_and, hm] at h'
  exact (BitVec.and_allOnes (x := w.extractLsb' 0 8)).symm.trans h'

/-! ### A word from its fields -/

theorem regBits_xField (w : Word) : regBits (xField w) = w.extractLsb' 8 4 := rfl

theorem regBits_yField (w : Word) : regBits (yField w) = w.extractLsb' 4 4 := rfl

theorem word_eq_encNnn (w : Word) : encNnn (opField w) (nnnField w) = w := by
  refine BitVec.eq_of_getLsbD_eq fun k hk => ?_
  rw [getLsbD_encNnn]
  split
  · rename_i h
    simp [nnnField, h]
  · have h1 : k - 12 < 4 := by omega
    have h2 : 12 + (k - 12) = k := by omega
    simp [opField, h1, h2]

theorem word_eq_encXnn (w : Word) : encXnn (opField w) (xField w) (nnField w) = w := by
  refine BitVec.eq_of_getLsbD_eq fun k hk => ?_
  rw [getLsbD_encXnn, regBits_xField]
  split
  · split
    · rename_i _ h
      simp [nnField, h]
    · have h1 : k - 8 < 4 := by omega
      have h2 : 8 + (k - 8) = k := by omega
      simp [h1, h2]
  · have h1 : k - 12 < 4 := by omega
    have h2 : 12 + (k - 12) = k := by omega
    simp [opField, h1, h2]

theorem word_eq_encXyn (w : Word) : encXyn (opField w) (xField w) (yField w) (nField w) = w := by
  refine BitVec.eq_of_getLsbD_eq fun k hk => ?_
  rw [getLsbD_encXyn, regBits_xField, regBits_yField]
  split
  · split
    · split
      · rename_i _ _ h
        simp [nField, h]
      · have h1 : k - 4 < 4 := by omega
        have h2 : 4 + (k - 4) = k := by omega
        simp [h1, h2]
    · have h1 : k - 8 < 4 := by omega
      have h2 : 8 + (k - 8) = k := by omega
      simp [h1, h2]
  · have h1 : k - 12 < 4 := by omega
    have h2 : 12 + (k - 12) = k := by omega
    simp [opField, h1, h2]

end Sys2Proof
end

