-- ==== Sys2Proof/Laws/State.lean ====
section
/-! SUPPORT. One lemma per field per update: what each shared operation writes, and that it leaves every
other field alone. -/

namespace Sys2Proof.Machine

variable (s : State)

/-! ### setV -/

@[simp] theorem setV_mem (r : Reg) (b : Byte) : (setV r b s).mem = s.mem := rfl
@[simp] theorem setV_v (r : Reg) (b : Byte) : (setV r b s).v = s.v.set r.val b := rfl
@[simp] theorem setV_i (r : Reg) (b : Byte) : (setV r b s).i = s.i := rfl
@[simp] theorem setV_pc (r : Reg) (b : Byte) : (setV r b s).pc = s.pc := rfl
@[simp] theorem setV_stack (r : Reg) (b : Byte) : (setV r b s).stack = s.stack := rfl
@[simp] theorem setV_sp (r : Reg) (b : Byte) : (setV r b s).sp = s.sp := rfl
@[simp] theorem setV_dt (r : Reg) (b : Byte) : (setV r b s).dt = s.dt := rfl
@[simp] theorem setV_st (r : Reg) (b : Byte) : (setV r b s).st = s.st := rfl
@[simp] theorem setV_fb (r : Reg) (b : Byte) : (setV r b s).fb = s.fb := rfl
@[simp] theorem setV_run (r : Reg) (b : Byte) : (setV r b s).run = s.run := rfl
@[simp] theorem setV_fault (r : Reg) (b : Byte) : (setV r b s).fault = s.fault := rfl
@[simp] theorem setV_sinceLastStep (r : Reg) (b : Byte) : (setV r b s).sinceLastStep = s.sinceLastStep := rfl
@[simp] theorem setV_sinceLastFrame (r : Reg) (b : Byte) : (setV r b s).sinceLastFrame = s.sinceLastFrame := rfl
@[simp] theorem setV_cfg (r : Reg) (b : Byte) : (setV r b s).cfg = s.cfg := rfl
@[simp] theorem setV_load (r : Reg) (b : Byte) : (setV r b s).load = s.load := rfl
@[simp] theorem setV_hostIn (r : Reg) (b : Byte) : (setV r b s).hostIn = s.hostIn := rfl
@[simp] theorem setV_entropyIn (r : Reg) (b : Byte) : (setV r b s).entropyIn = s.entropyIn := rfl
@[simp] theorem setV_keysIn (r : Reg) (b : Byte) : (setV r b s).keysIn = s.keysIn := rfl
@[simp] theorem setV_displayOut (r : Reg) (b : Byte) : (setV r b s).displayOut = s.displayOut := rfl
@[simp] theorem setV_draws (r : Reg) (b : Byte) : (setV r b s).draws = s.draws := rfl

/-! ### setI -/

@[simp] theorem setI_mem (a : Word) : (setI a s).mem = s.mem := rfl
@[simp] theorem setI_v (a : Word) : (setI a s).v = s.v := rfl
@[simp] theorem setI_i (a : Word) : (setI a s).i = a := rfl
@[simp] theorem setI_pc (a : Word) : (setI a s).pc = s.pc := rfl
@[simp] theorem setI_stack (a : Word) : (setI a s).stack = s.stack := rfl
@[simp] theorem setI_sp (a : Word) : (setI a s).sp = s.sp := rfl
@[simp] theorem setI_dt (a : Word) : (setI a s).dt = s.dt := rfl
@[simp] theorem setI_st (a : Word) : (setI a s).st = s.st := rfl
@[simp] theorem setI_fb (a : Word) : (setI a s).fb = s.fb := rfl
@[simp] theorem setI_run (a : Word) : (setI a s).run = s.run := rfl
@[simp] theorem setI_fault (a : Word) : (setI a s).fault = s.fault := rfl
@[simp] theorem setI_sinceLastStep (a : Word) : (setI a s).sinceLastStep = s.sinceLastStep := rfl
@[simp] theorem setI_sinceLastFrame (a : Word) : (setI a s).sinceLastFrame = s.sinceLastFrame := rfl
@[simp] theorem setI_cfg (a : Word) : (setI a s).cfg = s.cfg := rfl
@[simp] theorem setI_load (a : Word) : (setI a s).load = s.load := rfl
@[simp] theorem setI_hostIn (a : Word) : (setI a s).hostIn = s.hostIn := rfl
@[simp] theorem setI_entropyIn (a : Word) : (setI a s).entropyIn = s.entropyIn := rfl
@[simp] theorem setI_keysIn (a : Word) : (setI a s).keysIn = s.keysIn := rfl
@[simp] theorem setI_displayOut (a : Word) : (setI a s).displayOut = s.displayOut := rfl
@[simp] theorem setI_draws (a : Word) : (setI a s).draws = s.draws := rfl

/-! ### setPc -/

@[simp] theorem setPc_mem (a : Word) : (setPc a s).mem = s.mem := rfl
@[simp] theorem setPc_v (a : Word) : (setPc a s).v = s.v := rfl
@[simp] theorem setPc_i (a : Word) : (setPc a s).i = s.i := rfl
@[simp] theorem setPc_pc (a : Word) : (setPc a s).pc = a := rfl
@[simp] theorem setPc_stack (a : Word) : (setPc a s).stack = s.stack := rfl
@[simp] theorem setPc_sp (a : Word) : (setPc a s).sp = s.sp := rfl
@[simp] theorem setPc_dt (a : Word) : (setPc a s).dt = s.dt := rfl
@[simp] theorem setPc_st (a : Word) : (setPc a s).st = s.st := rfl
@[simp] theorem setPc_fb (a : Word) : (setPc a s).fb = s.fb := rfl
@[simp] theorem setPc_run (a : Word) : (setPc a s).run = s.run := rfl
@[simp] theorem setPc_fault (a : Word) : (setPc a s).fault = s.fault := rfl
@[simp] theorem setPc_sinceLastStep (a : Word) : (setPc a s).sinceLastStep = s.sinceLastStep := rfl
@[simp] theorem setPc_sinceLastFrame (a : Word) : (setPc a s).sinceLastFrame = s.sinceLastFrame := rfl
@[simp] theorem setPc_cfg (a : Word) : (setPc a s).cfg = s.cfg := rfl
@[simp] theorem setPc_load (a : Word) : (setPc a s).load = s.load := rfl
@[simp] theorem setPc_hostIn (a : Word) : (setPc a s).hostIn = s.hostIn := rfl
@[simp] theorem setPc_entropyIn (a : Word) : (setPc a s).entropyIn = s.entropyIn := rfl
@[simp] theorem setPc_keysIn (a : Word) : (setPc a s).keysIn = s.keysIn := rfl
@[simp] theorem setPc_displayOut (a : Word) : (setPc a s).displayOut = s.displayOut := rfl
@[simp] theorem setPc_draws (a : Word) : (setPc a s).draws = s.draws := rfl

/-! ### advancePc -/

@[simp] theorem advancePc_mem : (advancePc s).mem = s.mem := rfl
@[simp] theorem advancePc_v : (advancePc s).v = s.v := rfl
@[simp] theorem advancePc_i : (advancePc s).i = s.i := rfl
@[simp] theorem advancePc_pc : (advancePc s).pc = s.pc + 2 := rfl
@[simp] theorem advancePc_stack : (advancePc s).stack = s.stack := rfl
@[simp] theorem advancePc_sp : (advancePc s).sp = s.sp := rfl
@[simp] theorem advancePc_dt : (advancePc s).dt = s.dt := rfl
@[simp] theorem advancePc_st : (advancePc s).st = s.st := rfl
@[simp] theorem advancePc_fb : (advancePc s).fb = s.fb := rfl
@[simp] theorem advancePc_run : (advancePc s).run = s.run := rfl
@[simp] theorem advancePc_fault : (advancePc s).fault = s.fault := rfl
@[simp] theorem advancePc_sinceLastStep : (advancePc s).sinceLastStep = s.sinceLastStep := rfl
@[simp] theorem advancePc_sinceLastFrame : (advancePc s).sinceLastFrame = s.sinceLastFrame := rfl
@[simp] theorem advancePc_cfg : (advancePc s).cfg = s.cfg := rfl
@[simp] theorem advancePc_load : (advancePc s).load = s.load := rfl
@[simp] theorem advancePc_hostIn : (advancePc s).hostIn = s.hostIn := rfl
@[simp] theorem advancePc_entropyIn : (advancePc s).entropyIn = s.entropyIn := rfl
@[simp] theorem advancePc_keysIn : (advancePc s).keysIn = s.keysIn := rfl
@[simp] theorem advancePc_displayOut : (advancePc s).displayOut = s.displayOut := rfl
@[simp] theorem advancePc_draws : (advancePc s).draws = s.draws := rfl

/-! ### takeFault -/

@[simp] theorem takeFault_mem (c : FaultCause) (a : Word) : (takeFault c a s).mem = s.mem := rfl
@[simp] theorem takeFault_v (c : FaultCause) (a : Word) : (takeFault c a s).v = s.v := rfl
@[simp] theorem takeFault_i (c : FaultCause) (a : Word) : (takeFault c a s).i = s.i := rfl
@[simp] theorem takeFault_pc (c : FaultCause) (a : Word) : (takeFault c a s).pc = s.pc := rfl
@[simp] theorem takeFault_stack (c : FaultCause) (a : Word) : (takeFault c a s).stack = s.stack := rfl
@[simp] theorem takeFault_sp (c : FaultCause) (a : Word) : (takeFault c a s).sp = s.sp := rfl
@[simp] theorem takeFault_dt (c : FaultCause) (a : Word) : (takeFault c a s).dt = s.dt := rfl
@[simp] theorem takeFault_st (c : FaultCause) (a : Word) : (takeFault c a s).st = s.st := rfl
@[simp] theorem takeFault_fb (c : FaultCause) (a : Word) : (takeFault c a s).fb = s.fb := rfl
@[simp] theorem takeFault_run (c : FaultCause) (a : Word) : (takeFault c a s).run = .faulted := rfl
@[simp] theorem takeFault_fault (c : FaultCause) (a : Word) : (takeFault c a s).fault = some { cause := c, faultPc := a } := rfl
@[simp] theorem takeFault_sinceLastStep (c : FaultCause) (a : Word) : (takeFault c a s).sinceLastStep = s.sinceLastStep := rfl
@[simp] theorem takeFault_sinceLastFrame (c : FaultCause) (a : Word) : (takeFault c a s).sinceLastFrame = s.sinceLastFrame := rfl
@[simp] theorem takeFault_cfg (c : FaultCause) (a : Word) : (takeFault c a s).cfg = s.cfg := rfl
@[simp] theorem takeFault_load (c : FaultCause) (a : Word) : (takeFault c a s).load = s.load := rfl
@[simp] theorem takeFault_hostIn (c : FaultCause) (a : Word) : (takeFault c a s).hostIn = s.hostIn := rfl
@[simp] theorem takeFault_entropyIn (c : FaultCause) (a : Word) : (takeFault c a s).entropyIn = s.entropyIn := rfl
@[simp] theorem takeFault_keysIn (c : FaultCause) (a : Word) : (takeFault c a s).keysIn = s.keysIn := rfl
@[simp] theorem takeFault_displayOut (c : FaultCause) (a : Word) : (takeFault c a s).displayOut = s.displayOut := rfl
@[simp] theorem takeFault_draws (c : FaultCause) (a : Word) : (takeFault c a s).draws = s.draws := rfl

/-! ### writeByte -/

@[simp] theorem writeByte_mem (a : Nat) (b : Byte) : (writeByte a b s).mem = memWrite s.cfg a b s.mem := rfl
@[simp] theorem writeByte_v (a : Nat) (b : Byte) : (writeByte a b s).v = s.v := rfl
@[simp] theorem writeByte_i (a : Nat) (b : Byte) : (writeByte a b s).i = s.i := rfl
@[simp] theorem writeByte_pc (a : Nat) (b : Byte) : (writeByte a b s).pc = s.pc := rfl
@[simp] theorem writeByte_stack (a : Nat) (b : Byte) : (writeByte a b s).stack = s.stack := rfl
@[simp] theorem writeByte_sp (a : Nat) (b : Byte) : (writeByte a b s).sp = s.sp := rfl
@[simp] theorem writeByte_dt (a : Nat) (b : Byte) : (writeByte a b s).dt = s.dt := rfl
@[simp] theorem writeByte_st (a : Nat) (b : Byte) : (writeByte a b s).st = s.st := rfl
@[simp] theorem writeByte_fb (a : Nat) (b : Byte) : (writeByte a b s).fb = s.fb := rfl
@[simp] theorem writeByte_run (a : Nat) (b : Byte) : (writeByte a b s).run = s.run := rfl
@[simp] theorem writeByte_fault (a : Nat) (b : Byte) : (writeByte a b s).fault = s.fault := rfl
@[simp] theorem writeByte_sinceLastStep (a : Nat) (b : Byte) : (writeByte a b s).sinceLastStep = s.sinceLastStep := rfl
@[simp] theorem writeByte_sinceLastFrame (a : Nat) (b : Byte) : (writeByte a b s).sinceLastFrame = s.sinceLastFrame := rfl
@[simp] theorem writeByte_cfg (a : Nat) (b : Byte) : (writeByte a b s).cfg = s.cfg := rfl
@[simp] theorem writeByte_load (a : Nat) (b : Byte) : (writeByte a b s).load = s.load := rfl
@[simp] theorem writeByte_hostIn (a : Nat) (b : Byte) : (writeByte a b s).hostIn = s.hostIn := rfl
@[simp] theorem writeByte_entropyIn (a : Nat) (b : Byte) : (writeByte a b s).entropyIn = s.entropyIn := rfl
@[simp] theorem writeByte_keysIn (a : Nat) (b : Byte) : (writeByte a b s).keysIn = s.keysIn := rfl
@[simp] theorem writeByte_displayOut (a : Nat) (b : Byte) : (writeByte a b s).displayOut = s.displayOut := rfl
@[simp] theorem writeByte_draws (a : Nat) (b : Byte) : (writeByte a b s).draws = s.draws := rfl

/-! ### emit -/

@[simp] theorem emit_mem (e : DisplayEvent) : (emit e s).mem = s.mem := rfl
@[simp] theorem emit_v (e : DisplayEvent) : (emit e s).v = s.v := rfl
@[simp] theorem emit_i (e : DisplayEvent) : (emit e s).i = s.i := rfl
@[simp] theorem emit_pc (e : DisplayEvent) : (emit e s).pc = s.pc := rfl
@[simp] theorem emit_stack (e : DisplayEvent) : (emit e s).stack = s.stack := rfl
@[simp] theorem emit_sp (e : DisplayEvent) : (emit e s).sp = s.sp := rfl
@[simp] theorem emit_dt (e : DisplayEvent) : (emit e s).dt = s.dt := rfl
@[simp] theorem emit_st (e : DisplayEvent) : (emit e s).st = s.st := rfl
@[simp] theorem emit_fb (e : DisplayEvent) : (emit e s).fb = s.fb := rfl
@[simp] theorem emit_run (e : DisplayEvent) : (emit e s).run = s.run := rfl
@[simp] theorem emit_fault (e : DisplayEvent) : (emit e s).fault = s.fault := rfl
@[simp] theorem emit_sinceLastStep (e : DisplayEvent) : (emit e s).sinceLastStep = s.sinceLastStep := rfl
@[simp] theorem emit_sinceLastFrame (e : DisplayEvent) : (emit e s).sinceLastFrame = s.sinceLastFrame := rfl
@[simp] theorem emit_cfg (e : DisplayEvent) : (emit e s).cfg = s.cfg := rfl
@[simp] theorem emit_load (e : DisplayEvent) : (emit e s).load = s.load := rfl
@[simp] theorem emit_hostIn (e : DisplayEvent) : (emit e s).hostIn = s.hostIn := rfl
@[simp] theorem emit_entropyIn (e : DisplayEvent) : (emit e s).entropyIn = s.entropyIn := rfl
@[simp] theorem emit_keysIn (e : DisplayEvent) : (emit e s).keysIn = s.keysIn := rfl
@[simp] theorem emit_displayOut (e : DisplayEvent) : (emit e s).displayOut = s.displayOut ++ [e] := rfl
@[simp] theorem emit_draws (e : DisplayEvent) : (emit e s).draws = s.draws := rfl

/-! ### accumulate -/

@[simp] theorem accumulate_mem (e : Rat) : (accumulate e s).mem = s.mem := rfl
@[simp] theorem accumulate_v (e : Rat) : (accumulate e s).v = s.v := rfl
@[simp] theorem accumulate_i (e : Rat) : (accumulate e s).i = s.i := rfl
@[simp] theorem accumulate_pc (e : Rat) : (accumulate e s).pc = s.pc := rfl
@[simp] theorem accumulate_stack (e : Rat) : (accumulate e s).stack = s.stack := rfl
@[simp] theorem accumulate_sp (e : Rat) : (accumulate e s).sp = s.sp := rfl
@[simp] theorem accumulate_dt (e : Rat) : (accumulate e s).dt = s.dt := rfl
@[simp] theorem accumulate_st (e : Rat) : (accumulate e s).st = s.st := rfl
@[simp] theorem accumulate_fb (e : Rat) : (accumulate e s).fb = s.fb := rfl
@[simp] theorem accumulate_run (e : Rat) : (accumulate e s).run = s.run := rfl
@[simp] theorem accumulate_fault (e : Rat) : (accumulate e s).fault = s.fault := rfl
@[simp] theorem accumulate_sinceLastStep (e : Rat) : (accumulate e s).sinceLastStep = s.sinceLastStep + e := rfl
@[simp] theorem accumulate_sinceLastFrame (e : Rat) : (accumulate e s).sinceLastFrame = s.sinceLastFrame + e := rfl
@[simp] theorem accumulate_cfg (e : Rat) : (accumulate e s).cfg = s.cfg := rfl
@[simp] theorem accumulate_load (e : Rat) : (accumulate e s).load = s.load := rfl
@[simp] theorem accumulate_hostIn (e : Rat) : (accumulate e s).hostIn = s.hostIn := rfl
@[simp] theorem accumulate_entropyIn (e : Rat) : (accumulate e s).entropyIn = s.entropyIn := rfl
@[simp] theorem accumulate_keysIn (e : Rat) : (accumulate e s).keysIn = s.keysIn := rfl
@[simp] theorem accumulate_displayOut (e : Rat) : (accumulate e s).displayOut = s.displayOut := rfl
@[simp] theorem accumulate_draws (e : Rat) : (accumulate e s).draws = s.draws := rfl

/-! ### skipIf -/

@[simp] theorem skipIf_mem (c : Bool) : (skipIf c s).mem = s.mem := by cases c <;> rfl
@[simp] theorem skipIf_v (c : Bool) : (skipIf c s).v = s.v := by cases c <;> rfl
@[simp] theorem skipIf_i (c : Bool) : (skipIf c s).i = s.i := by cases c <;> rfl
@[simp] theorem skipIf_pc (c : Bool) : (skipIf c s).pc = if c then s.pc + 2 else s.pc := by
  cases c <;> rfl
@[simp] theorem skipIf_stack (c : Bool) : (skipIf c s).stack = s.stack := by cases c <;> rfl
@[simp] theorem skipIf_sp (c : Bool) : (skipIf c s).sp = s.sp := by cases c <;> rfl
@[simp] theorem skipIf_dt (c : Bool) : (skipIf c s).dt = s.dt := by cases c <;> rfl
@[simp] theorem skipIf_st (c : Bool) : (skipIf c s).st = s.st := by cases c <;> rfl
@[simp] theorem skipIf_fb (c : Bool) : (skipIf c s).fb = s.fb := by cases c <;> rfl
@[simp] theorem skipIf_run (c : Bool) : (skipIf c s).run = s.run := by cases c <;> rfl
@[simp] theorem skipIf_fault (c : Bool) : (skipIf c s).fault = s.fault := by cases c <;> rfl
@[simp] theorem skipIf_sinceLastStep (c : Bool) : (skipIf c s).sinceLastStep = s.sinceLastStep := by cases c <;> rfl
@[simp] theorem skipIf_sinceLastFrame (c : Bool) : (skipIf c s).sinceLastFrame = s.sinceLastFrame := by cases c <;> rfl
@[simp] theorem skipIf_cfg (c : Bool) : (skipIf c s).cfg = s.cfg := by cases c <;> rfl
@[simp] theorem skipIf_load (c : Bool) : (skipIf c s).load = s.load := by cases c <;> rfl
@[simp] theorem skipIf_hostIn (c : Bool) : (skipIf c s).hostIn = s.hostIn := by cases c <;> rfl
@[simp] theorem skipIf_entropyIn (c : Bool) : (skipIf c s).entropyIn = s.entropyIn := by cases c <;> rfl
@[simp] theorem skipIf_keysIn (c : Bool) : (skipIf c s).keysIn = s.keysIn := by cases c <;> rfl
@[simp] theorem skipIf_displayOut (c : Bool) : (skipIf c s).displayOut = s.displayOut := by cases c <;> rfl
@[simp] theorem skipIf_draws (c : Bool) : (skipIf c s).draws = s.draws := by cases c <;> rfl

end Sys2Proof.Machine
end

