-- ==== Sys2Proof/Laws/Display.lean ====
section
/-! SUPPORT. Pixels after flips, and what one sprite row and a whole blit do to each pixel and to the
collision. -/

namespace Sys2Proof.Machine

/-- Reading a pixel after flipping one. -/
theorem pixel_flipPixel (fb : Framebuffer) (row col r c : Nat) (hr : r < 32) (hc : c < 64) :
    pixel (flipPixel fb row col) r c = (pixel fb r c ^^ (decide (r = row) && decide (c = col))) := by
  unfold flipPixel
  split
  · rename_i h
    simp only [pixel, hr, hc, and_self, dite_true, Vector.getElem_set]
    by_cases h1 : row = r <;> by_cases h2 : col = c <;>
      simp_all [eq_comm]
  · rename_i h
    have : ¬ (r = row ∧ c = col) := by rintro ⟨rfl, rfl⟩; exact h ⟨hr, hc⟩
    by_cases h1 : r = row <;> by_cases h2 : c = col <;> simp_all

/-- No pixel lies off the screen. -/
theorem pixel_off_screen (fb : Framebuffer) (row col : Nat) (h : ¬ (row < 32 ∧ col < 64)) :
    pixel fb row col = false := by simp [pixel, h]

theorem pixel_cleared (row col : Nat) : pixel clearedFb row col = false := by
  unfold pixel
  split
  · simp [clearedFb]
  · rfl

/-- Framebuffers that agree on every pixel are equal. -/
theorem framebuffer_ext {fb fb' : Framebuffer}
    (h : ∀ row col, row < 32 → col < 64 → pixel fb row col = pixel fb' row col) : fb = fb' := by
  ext row hrow col hcol
  have := h row col hrow hcol
  simpa [pixel, hrow, hcol] using this

/-- The first `m` bits of a sprite row: whether one of them lands on the pixel at column `c`. -/
def rowCovers (b : Byte) (x0 m c : Nat) : Bool :=
  decide (x0 ≤ c) && decide (c < x0 + m) && spriteBit b (c - x0)

/-- What the first `m` bits of a sprite row do: they flip the pixels they cover, and the collision is
joined by every covered pixel that was set. -/
theorem blitPixels_spec (b : Byte) (row x0 m : Nat) (hrow : row < 32) (d : Framebuffer × Bool) :
    let e := (List.range m).foldl (fun d k => blitPixel b row x0 k d) d
    (∀ r c, r < 32 → c < 64 →
      pixel e.1 r c = (pixel d.1 r c ^^ (decide (r = row) && rowCovers b x0 m c))) ∧
    (e.2 = true ↔ d.2 = true ∨ ∃ c, c < 64 ∧ rowCovers b x0 m c = true ∧ pixel d.1 row c = true) := by
  induction m with
  | zero =>
    refine ⟨fun r c _ _ => ?_, ?_⟩
    · have : rowCovers b x0 0 c = false := by
        by_cases h : x0 ≤ c <;> simp [rowCovers, h]
      simp [this]
    · constructor
      · exact .inl
      · rintro (h | ⟨c, -, h, -⟩)
        · exact h
        · simp only [rowCovers, Bool.and_eq_true, decide_eq_true_eq] at h; omega
  | succ m ih =>
    simp only [List.range_succ, List.foldl_append, List.foldl_cons, List.foldl_nil]
    generalize (List.range m).foldl (fun d k => blitPixel b row x0 k d) d = e at ih ⊢
    obtain ⟨ih1, ih2⟩ := ih
    have hcov : ∀ c, rowCovers b x0 (m + 1) c =
        (rowCovers b x0 m c || (decide (c = x0 + m) && spriteBit b m)) := by
      intro c
      by_cases h : c = x0 + m
      · subst h
        simp [rowCovers]
      · have : (c < x0 + (m + 1)) = (c < x0 + m) := by
          apply propext; omega
        simp [rowCovers, this, h]
    have hdisj : rowCovers b x0 m (x0 + m) = false := by simp [rowCovers]
    unfold blitPixel
    split
    · rename_i hb
      simp only [Bool.and_eq_true, decide_eq_true_eq] at hb
      obtain ⟨hbit, hlt⟩ := hb
      refine ⟨fun r c hr hc => ?_, ?_⟩
      · rw [pixel_flipPixel _ _ _ _ _ hr hc, ih1 r c hr hc, hcov c]
        by_cases h1 : r = row <;> by_cases h2 : c = x0 + m <;>
          simp_all
      · rw [Bool.or_eq_true, ih2, ih1 row (x0 + m) hrow hlt, hdisj]
        simp only [Bool.and_false, Bool.xor_false]
        constructor
        · rintro ((h | ⟨c, hc, h, hp⟩) | h)
          · exact .inl h
          · exact .inr ⟨c, hc, by rw [hcov, h, Bool.true_or], hp⟩
          · exact .inr ⟨x0 + m, hlt, by simp [hcov, hbit], h⟩
        · rintro (h | ⟨c, hc, h, hp⟩)
          · exact .inl (.inl h)
          · rw [hcov, Bool.or_eq_true, Bool.and_eq_true, decide_eq_true_eq] at h
            rcases h with h | ⟨rfl, -⟩
            · exact .inl (.inr ⟨c, hc, h, hp⟩)
            · exact .inr hp
    · rename_i hb
      have hcov' : ∀ c, c < 64 → rowCovers b x0 (m + 1) c = rowCovers b x0 m c := by
        intro c hc
        rw [hcov]
        by_cases h : c = x0 + m
        · subst h
          have : spriteBit b m = false := by
            by_contra hbit
            exact hb (by simp [Bool.eq_true_of_not_eq_false hbit, hc])
          simp [this]
        · simp [h]
      refine ⟨fun r c hr hc => ?_, ?_⟩
      · rw [ih1 r c hr hc, hcov' c hc]
      · rw [ih2]
        constructor
        · rintro (h | ⟨c, hc, h, hp⟩)
          · exact .inl h
          · exact .inr ⟨c, hc, by rw [hcov' c hc, h], hp⟩
        · rintro (h | ⟨c, hc, h, hp⟩)
          · exact .inl h
          · exact .inr ⟨c, hc, by rw [← hcov' c hc, h], hp⟩

/-- What one sprite row does. -/
theorem blitRow_spec (b : Byte) (row x0 : Nat) (hrow : row < 32) (d : Framebuffer × Bool) :
    (∀ r c, r < 32 → c < 64 →
      pixel (blitRow b row x0 d).1 r c = (pixel d.1 r c ^^ (decide (r = row) && rowCovers b x0 8 c))) ∧
    ((blitRow b row x0 d).2 = true ↔
      d.2 = true ∨ ∃ c, c < 64 ∧ rowCovers b x0 8 c = true ∧ pixel d.1 row c = true) :=
  blitPixels_spec b row x0 8 hrow d

/-- Whether sprite rows drawn downwards from row `y0` have a set bit on a pixel. -/
def rowsCover (bytes : List Byte) (x0 y0 r c : Nat) : Bool :=
  decide (y0 ≤ r) && rowCovers (bytes.getD (r - y0) 0) x0 8 c

/-- What a whole blit does: the pixels under a set bit are flipped, and the collision is joined by each
of them that was set. -/
theorem blitRows_spec (bytes : List Byte) (x0 y0 : Nat) (d : Framebuffer × Bool)
    (h : y0 + bytes.length ≤ 32) :
    (∀ r c, r < 32 → c < 64 →
      pixel (blitRows x0 y0 bytes d).1 r c = (pixel d.1 r c ^^ rowsCover bytes x0 y0 r c)) ∧
    ((blitRows x0 y0 bytes d).2 = true ↔
      d.2 = true ∨ ∃ r c, r < 32 ∧ c < 64 ∧ rowsCover bytes x0 y0 r c = true ∧ pixel d.1 r c = true) := by
  induction bytes generalizing y0 d with
  | nil =>
    have hno : ∀ r c, rowsCover [] x0 y0 r c = false := by
      intro r c
      simp [rowsCover, rowCovers, spriteBit]
    refine ⟨fun r c _ _ => by simp [blitRows, hno], ?_⟩
    simp [blitRows, hno]
  | cons b bs ih =>
    simp only [List.length_cons] at h
    have hrow : y0 < 32 := by omega
    obtain ⟨hp, hc⟩ := blitRow_spec b y0 x0 hrow d
    obtain ⟨ihp, ihc⟩ := ih (y0 + 1) (blitRow b y0 x0 d) (by omega)
    have hcov : ∀ r c, rowsCover (b :: bs) x0 y0 r c =
        ((decide (r = y0) && rowCovers b x0 8 c) || rowsCover bs x0 (y0 + 1) r c) := by
      intro r c
      unfold rowsCover
      rcases Nat.lt_trichotomy r y0 with hlt | heq | hgt
      · have h1 : ¬ y0 ≤ r := by omega
        have h2 : ¬ y0 + 1 ≤ r := by omega
        have h3 : r ≠ y0 := by omega
        simp [h1, h2, h3]
      · subst heq
        have h2 : ¬ r + 1 ≤ r := by omega
        simp
      · have h1 : y0 ≤ r := by omega
        have h2 : y0 + 1 ≤ r := by omega
        have h3 : r ≠ y0 := by omega
        have h4 : r - y0 = (r - (y0 + 1)) + 1 := by omega
        simp [h1, h2, h3, h4]
    have hexcl : ∀ c, rowsCover bs x0 (y0 + 1) y0 c = false := by
      intro c
      have h2 : ¬ y0 + 1 ≤ y0 := by omega
      simp [rowsCover]
    refine ⟨fun r c hr hc' => ?_, ?_⟩
    · rw [blitRows, ihp r c hr hc', hp r c hr hc', hcov r c]
      by_cases hr0 : r = y0
      · subst hr0; simp [hexcl]
      · simp [hr0]
    · rw [blitRows, ihc, hc]
      constructor
      · rintro ((h | ⟨c, hc', hcv, hpx⟩) | ⟨r, c, hr, hc', hcv, hpx⟩)
        · exact .inl h
        · exact .inr ⟨y0, c, hrow, hc', by simp [hcov, hcv], hpx⟩
        · refine .inr ⟨r, c, hr, hc', by simp [hcov, hcv], ?_⟩
          rw [hp r c hr hc'] at hpx
          have hr0 : r ≠ y0 := by
            rintro rfl
            rw [hexcl] at hcv
            cases hcv
          simpa [hr0] using hpx
      · rintro (h | ⟨r, c, hr, hc', hcv, hpx⟩)
        · exact .inl (.inl h)
        · rw [hcov, Bool.or_eq_true, Bool.and_eq_true, decide_eq_true_eq] at hcv
          rcases hcv with ⟨rfl, hcv⟩ | hcv
          · exact .inl (.inr ⟨c, hc', hcv, hpx⟩)
          · refine .inr ⟨r, c, hr, hc', hcv, ?_⟩
            have hr0 : r ≠ y0 := by
              rintro rfl
              rw [hexcl] at hcv
              cases hcv
            rw [hp r c hr hc']
            simpa [hr0] using hpx

end Sys2Proof.Machine
end

