-- ==== Sys2Proof/Laws/Inputs.lean ====
section
/-! SUPPORT. What taking an input can do: one value, and at most one of the input fields or the free-value
counter changed; and what the key test of SKP and SKNP can do. -/

namespace Sys2Proof.Machine

/-- Taking an entropy byte changes only the queue and the counter. -/
theorem takeEntropy_only (s : State) :
    (takeEntropy s).2 = { s with entropyIn := s.entropyIn.tail, draws := (takeEntropy s).2.draws } := by
  unfold takeEntropy
  split
  · rename_i b rest h; simp [h]
  · rename_i h; simp [h]

/-- A queued byte is taken; the counter stays. -/
theorem takeEntropy_queued {s : State} {b : Byte} {rest : List Byte} (h : s.entropyIn = b :: rest) :
    takeEntropy s = (b, { s with entropyIn := rest }) := by simp [takeEntropy, h]

/-- With nothing queued, a free value is drawn. -/
theorem takeEntropy_free {s : State} (h : s.entropyIn = []) :
    takeEntropy s = (Config.freeEntropy s.draws, { s with draws := s.draws + 1 }) := by
  simp [takeEntropy, h]

/-- Sampling the keys changes only the queue and the counter. -/
theorem takeKeys_only (s : State) :
    (takeKeys s).2 = { s with keysIn := s.keysIn.tail, draws := (takeKeys s).2.draws } := by
  unfold takeKeys
  split
  · rename_i b rest h; simp [h]
  · rename_i h; simp [h]

/-- Queued levels are sampled; the counter stays. -/
theorem takeKeys_queued {s : State} {l : BitVec 16} {rest : List (BitVec 16)} (h : s.keysIn = l :: rest) :
    takeKeys s = (l, { s with keysIn := rest }) := by simp [takeKeys, h]

/-- With nothing queued, a free value is drawn. -/
theorem takeKeys_free {s : State} (h : s.keysIn = []) :
    takeKeys s = (Config.freeKeys s.draws, { s with draws := s.draws + 1 }) := by simp [takeKeys, h]

/-- Which key a register names: none exactly when its value exceeds 15 under `FAULT`. -/
theorem keyOperand_eq (s : State) (x : Reg) :
    keyOperand s x =
      if (getV s x).toNat ≤ 15 ∨ s.cfg.rangePolicy = .wrap then some ((getV s x).toNat % 16) else none := by
  unfold keyOperand
  dsimp only
  split
  · rename_i h
    have h2 : (getV s x).toNat % 16 = (getV s x).toNat := Nat.mod_eq_of_lt (by omega)
    rw [if_pos (.inl h), h2]
  · rename_i h
    cases hp : s.cfg.rangePolicy with
    | fault => rw [if_neg (by simp [h])]
    | wrap => rw [if_pos (.inr rfl)]

/-- What the key test can do: take the key fault, or sample once and skip on the level. -/
theorem skipOnKey_cases (x : Reg) (want : Bool) (s : State) :
    ((15 < (getV s x).toNat ∧ s.cfg.rangePolicy = .fault) ∧
      skipOnKey x want s = raise (.keyIndexOutOfRange (getV s x)) s) ∨
    (((getV s x).toNat ≤ 15 ∨ s.cfg.rangePolicy = .wrap) ∧
      skipOnKey x want s =
        .next (skipIf (keyLevel (takeKeys s).1 ((getV s x).toNat % 16) == want) (takeKeys s).2)) := by
  unfold skipOnKey
  rw [keyOperand_eq]
  by_cases h : (getV s x).toNat ≤ 15 ∨ s.cfg.rangePolicy = .wrap
  · rw [if_pos h]
    exact .inr ⟨h, rfl⟩
  · rw [if_neg h]
    simp only [not_or] at h
    refine .inl ⟨⟨by omega, ?_⟩, rfl⟩
    cases hp : s.cfg.rangePolicy with
    | fault => rfl
    | wrap => exact absurd hp h.2

end Sys2Proof.Machine
end

