-- ==== Sys2Proof/Laws/Memory.lean ====
section
/-! SUPPORT. The laws of memory: read after write, every operation keeps the canonical form, and what the
address check answers. -/

namespace Sys2Proof.Machine

/-! ### Lookup after erase and insert -/

theorem memLookup_memErase (a b : Nat) (m : Memory) :
    memLookup b (memErase a m) = if b = a then none else memLookup b m := by
  induction m with
  | nil => simp [memErase, memLookup]
  | cons e m ih =>
    obtain ⟨c, w⟩ := e
    by_cases hca : c = a <;> by_cases hcb : c = b <;> by_cases hba : b = a <;>
      simp_all [memErase, memLookup]

theorem memLookup_memInsert (a b : Nat) (v : Byte) (m : Memory) :
    memLookup b (memInsert a v m) = if b = a then some v else memLookup b m := by
  induction m with
  | nil =>
    by_cases h : b = a
    · simp [memInsert, memLookup, h]
    · simp [memInsert, memLookup, h, Ne.symm h]
  | cons e m ih =>
    obtain ⟨c, w⟩ := e
    rw [memInsert]
    split
    · by_cases h : b = a
      · simp [memLookup, h]
      · simp [memLookup, h, Ne.symm h]
    · split
      · rename_i _ hac
        subst hac
        by_cases h : b = a
        · simp [memLookup, h]
        · simp [memLookup, h, Ne.symm h]
      · rename_i _ hac
        by_cases h : b = a
        · subst h
          simp [memLookup, ih, Ne.symm hac]
        · by_cases hcb : c = b <;> simp [memLookup, ih, h, hcb]

/-- Reading a byte after writing one, in any memory. -/
theorem memRead_memWrite (c : Config) (a b : Nat) (v : Byte) (m : Memory) :
    memRead c (memWrite c a v m) b = if b = a then v else memRead c m b := by
  unfold memRead memWrite
  split
  · rename_i hv
    rw [memLookup_memErase]
    by_cases h : b = a <;> simp [h, hv]
  · rw [memLookup_memInsert]
    by_cases h : b = a <;> simp [h]

theorem readByte_writeByte (a b : Nat) (v : Byte) (s : State) :
    readByte (writeByte a v s) b = if b = a then v else readByte s b :=
  memRead_memWrite s.cfg a b v s.mem

/-- `readByte` reads nothing but memory and the parameters. -/
theorem readByte_congr {s t : State} (hm : t.mem = s.mem) (hc : t.cfg = s.cfg) (a : Nat) :
    readByte t a = readByte s a := by simp [readByte, hm, hc]

/-! ### Writing a list of bytes -/

/-- `writeBytes` writes memory only. -/
theorem writeBytes_only (cells : List (Nat × Byte)) (s : State) :
    writeBytes cells s = { s with mem := (writeBytes cells s).mem } := by
  induction cells generalizing s with
  | nil => rfl
  | cons e cells ih =>
    obtain ⟨a, v⟩ := e
    rw [writeBytes, ih]
    rfl

/-- A byte that is not written reads as before. -/
theorem readByte_writeBytes_other (cells : List (Nat × Byte)) (s : State) (b : Nat)
    (h : b ∉ cells.map Prod.fst) : readByte (writeBytes cells s) b = readByte s b := by
  induction cells generalizing s with
  | nil => rfl
  | cons e cells ih =>
    obtain ⟨a, v⟩ := e
    simp only [List.map_cons, List.mem_cons, not_or] at h
    rw [writeBytes, ih _ h.2, readByte_writeByte, if_neg h.1]

/-- A byte written once reads as what was written. -/
theorem readByte_writeBytes_mem (cells : List (Nat × Byte)) (s : State) (a : Nat) (v : Byte)
    (hd : (cells.map Prod.fst).Nodup) (h : (a, v) ∈ cells) :
    readByte (writeBytes cells s) a = v := by
  induction cells generalizing s with
  | nil => simp at h
  | cons e cells ih =>
    obtain ⟨b, w⟩ := e
    simp only [List.map_cons, List.nodup_cons] at hd
    rw [writeBytes]
    rcases List.mem_cons.mp h with h | h
    · obtain ⟨rfl, rfl⟩ := Prod.mk.inj h
      rw [readByte_writeBytes_other _ _ _ hd.1, readByte_writeByte, if_pos rfl]
    · exact ih _ hd.2 h

/-! ### The canonical form -/

theorem memWfFrom_mono {c : Config} {lo lo' : Nat} (h : lo ≤ lo') {m : Memory}
    (hm : memWfFrom c lo' m = true) : memWfFrom c lo m = true := by
  cases m with
  | nil => rfl
  | cons e m =>
    obtain ⟨a, v⟩ := e
    simp only [memWfFrom, Bool.and_eq_true, decide_eq_true_eq] at hm ⊢
    exact ⟨⟨⟨h.trans hm.1.1.1, hm.1.1.2⟩, hm.1.2⟩, hm.2⟩

theorem memWfFrom_memErase {c : Config} (a : Nat) {lo : Nat} {m : Memory}
    (hm : memWfFrom c lo m = true) : memWfFrom c lo (memErase a m) = true := by
  induction m generalizing lo with
  | nil => rfl
  | cons e m ih =>
    obtain ⟨b, w⟩ := e
    simp only [memWfFrom, Bool.and_eq_true, decide_eq_true_eq] at hm
    rw [memErase]
    split
    · exact ih (memWfFrom_mono (hm.1.1.1.trans (Nat.le_succ b)) hm.2)
    · simp only [memWfFrom, Bool.and_eq_true, decide_eq_true_eq]
      exact ⟨hm.1, ih hm.2⟩

theorem memWfFrom_memInsert {c : Config} {a : Nat} {v : Byte} (ha : a < memSize)
    (hv : v ≠ background c a) {lo : Nat} (hlo : lo ≤ a) {m : Memory}
    (hm : memWfFrom c lo m = true) : memWfFrom c lo (memInsert a v m) = true := by
  induction m generalizing lo with
  | nil => simp [memInsert, memWfFrom, hlo, ha, hv]
  | cons e m ih =>
    obtain ⟨b, w⟩ := e
    simp only [memWfFrom, Bool.and_eq_true, decide_eq_true_eq] at hm
    rw [memInsert]
    split
    · rename_i hab
      simp only [memWfFrom, Bool.and_eq_true, decide_eq_true_eq]
      exact ⟨⟨⟨hlo, ha⟩, hv⟩, ⟨⟨⟨hab, hm.1.1.2⟩, hm.1.2⟩, hm.2⟩⟩
    · split
      · rename_i _ hab
        subst hab
        simp only [memWfFrom, Bool.and_eq_true, decide_eq_true_eq]
        exact ⟨⟨⟨hlo, ha⟩, hv⟩, hm.2⟩
      · rename_i h1 h2
        simp only [memWfFrom, Bool.and_eq_true, decide_eq_true_eq]
        exact ⟨hm.1, ih (by omega) hm.2⟩

/-- A write below 4096 keeps the canonical form. -/
theorem memWrite_keeps_wf {c : Config} {a : Nat} {v : Byte} {m : Memory} (ha : a < memSize)
    (hm : Memory.wf c m = true) : Memory.wf c (memWrite c a v m) = true := by
  unfold memWrite
  split
  · exact memWfFrom_memErase a hm
  · rename_i hv
    exact memWfFrom_memInsert ha hv (Nat.zero_le a) hm

/-- Writes below 4096 keep the canonical form. -/
theorem writeBytes_keeps_wf (cells : List (Nat × Byte)) (s : State)
    (ha : ∀ e ∈ cells, e.1 < memSize) (hm : Memory.wf s.cfg s.mem = true) :
    Memory.wf (writeBytes cells s).cfg (writeBytes cells s).mem = true := by
  induction cells generalizing s with
  | nil => exact hm
  | cons e cells ih =>
    obtain ⟨a, v⟩ := e
    rw [writeBytes]
    refine ih _ (fun e he => ha e (List.mem_cons_of_mem _ he)) ?_
    exact memWrite_keeps_wf (ha (a, v) List.mem_cons_self) hm

/-- Reset memory, which lists nothing, is in canonical form. -/
theorem reset_memory_wf (c : Config) : Memory.wf c (State.resetWith c).mem = true := rfl

/-- An address below all listed ones is not listed. -/
theorem memLookup_lt {c : Config} {lo a : Nat} {m : Memory} (hm : memWfFrom c lo m = true) (h : a < lo) :
    memLookup a m = none := by
  induction m generalizing lo with
  | nil => rfl
  | cons e m ih =>
    obtain ⟨b, w⟩ := e
    simp only [memWfFrom, Bool.and_eq_true, decide_eq_true_eq] at hm
    rw [memLookup, if_neg (by omega)]
    exact ih hm.2 (by omega)

/-! ### The address check -/

/-- What the address check answers: the address below 4096, else by policy. -/
theorem effAddr_eq_ok_iff (p : RangePolicy) (a b : Nat) :
    effAddr p a = .ok b ↔ (a < 4096 ∨ p = .wrap) ∧ b = a % 4096 := by
  unfold effAddr
  split
  · rename_i h
    rw [Nat.mod_eq_of_lt h]
    constructor
    · intro e; exact ⟨.inl h, (Except.ok.inj e).symm⟩
    · rintro ⟨-, rfl⟩; rfl
  · rename_i h
    have h' : ¬ a < 4096 := h
    cases p with
    | fault => simp [h']
    | wrap =>
      constructor
      · intro e; exact ⟨.inr rfl, (Except.ok.inj e).symm⟩
      · rintro ⟨-, rfl⟩; rfl

theorem effAddr_eq_error_iff (p : RangePolicy) (a b : Nat) :
    effAddr p a = .error b ↔ 4096 ≤ a ∧ p = .fault ∧ b = a := by
  unfold effAddr
  split
  · rename_i h
    have h' : a < 4096 := h
    constructor
    · intro e; cases e
    · rintro ⟨h2, -⟩; omega
  · rename_i h
    have h' : 4096 ≤ a := Nat.le_of_not_lt h
    cases p with
    | fault =>
      constructor
      · intro e; exact ⟨h', rfl, (Except.error.inj e).symm⟩
      · rintro ⟨-, -, rfl⟩; rfl
    | wrap =>
      constructor
      · intro e; cases e
      · rintro ⟨-, h2, -⟩; cases h2

/-- All addresses pass the check exactly when each does; the answers are the addresses mod 4096. -/
theorem effAddrs_eq_ok_iff (p : RangePolicy) (as bs : List Nat) :
    effAddrs p as = .ok bs ↔ (p = .wrap ∨ ∀ a ∈ as, a < 4096) ∧ bs = as.map (· % 4096) := by
  induction as generalizing bs with
  | nil => simp [effAddrs, eq_comm]
  | cons a as ih =>
    rw [effAddrs]
    cases ha : effAddr p a with
    | error e =>
      obtain ⟨h1, h2, -⟩ := (effAddr_eq_error_iff p a e).mp ha
      subst h2
      simp [Nat.not_lt.mpr h1]
    | ok b =>
      obtain ⟨h1, rfl⟩ := (effAddr_eq_ok_iff p a b).mp ha
      cases hr : effAddrs p as with
      | error e =>
        have hno : ¬ (p = .wrap ∨ ∀ a ∈ as, a < 4096) := fun h => by
          have := (ih _).mpr ⟨h, rfl⟩
          rw [hr] at this
          cases this
        simp only [not_or] at hno
        simp only [reduceCtorEq, List.forall_mem_cons, false_iff]
        rintro ⟨h | h, -⟩
        · exact hno.1 h
        · exact hno.2 h.2
      | ok rs =>
        obtain ⟨h2, rfl⟩ := (ih rs).mp hr
        simp only [Except.ok.injEq, List.map_cons, List.forall_mem_cons]
        constructor
        · rintro rfl
          refine ⟨?_, rfl⟩
          rcases h1 with h1 | h1
          · exact h2.imp_right fun h => ⟨h1, h⟩
          · exact .inl h1
        · rintro ⟨-, rfl⟩; rfl

/-- A failed check names the first address out of range, and only under `FAULT`. -/
theorem effAddrs_eq_error_iff (p : RangePolicy) (as : List Nat) (e : Nat) :
    effAddrs p as = .error e ↔
      p = .fault ∧ ∃ pre post, as = pre ++ e :: post ∧ (∀ a ∈ pre, a < 4096) ∧ 4096 ≤ e := by
  induction as with
  | nil => simp [effAddrs]
  | cons a as ih =>
    rw [effAddrs]
    cases ha : effAddr p a with
    | error b =>
      obtain ⟨h1, h2, rfl⟩ := (effAddr_eq_error_iff p a b).mp ha
      simp only [Except.error.injEq]
      constructor
      · rintro rfl
        exact ⟨h2, [], as, rfl, by simp, h1⟩
      · rintro ⟨-, pre, post, h3, h4, -⟩
        cases pre with
        | nil => exact (List.cons.inj h3).1
        | cons c pre =>
          obtain ⟨rfl, -⟩ := List.cons.inj h3
          exact absurd (h4 _ List.mem_cons_self) (by omega)
    | ok b =>
      obtain ⟨h1, -⟩ := (effAddr_eq_ok_iff p a b).mp ha
      have key : (∃ pre post, a :: as = pre ++ e :: post ∧ (∀ a ∈ pre, a < 4096) ∧ 4096 ≤ e) ∧ p = .fault ↔
          (∃ pre post, as = pre ++ e :: post ∧ (∀ a ∈ pre, a < 4096) ∧ 4096 ≤ e) ∧ p = .fault := by
        constructor
        · rintro ⟨⟨pre, post, h3, h4, h5⟩, rfl⟩
          cases pre with
          | nil =>
            obtain ⟨rfl, -⟩ := List.cons.inj h3
            rcases h1 with h1 | h1
            · omega
            · cases h1
          | cons c pre =>
            exact ⟨⟨pre, post, (List.cons.inj h3).2, fun x hx => h4 x (List.mem_cons_of_mem _ hx), h5⟩, rfl⟩
        · rintro ⟨⟨pre, post, rfl, h4, h5⟩, rfl⟩
          refine ⟨⟨a :: pre, post, rfl, ?_, h5⟩, rfl⟩
          intro x hx
          rcases List.mem_cons.mp hx with rfl | hx
          · exact h1.resolve_right (by simp)
          · exact h4 x hx
      rw [and_comm, key, and_comm, ← ih]
      cases effAddrs p as <;> simp

/-- The index addresses pass the check under `WRAP`, or when the last is below 4096. -/
theorem effAddrs_indexAddrs (s : State) (n : Nat)
    (h : s.cfg.rangePolicy = .wrap ∨ s.i.toNat + n ≤ 4096 ∨ n = 0) :
    effAddrs s.cfg.rangePolicy (indexAddrs s n) =
      .ok ((List.range n).map fun k => (s.i.toNat + k) % 4096) := by
  rw [effAddrs_eq_ok_iff]
  refine ⟨h.imp_right fun h a ha => ?_, by simp [indexAddrs]⟩
  simp only [indexAddrs, List.mem_map, List.mem_range] at ha
  obtain ⟨k, hk, rfl⟩ := ha
  omega

/-- Effective addresses lie in memory. -/
theorem effAddrs_lt {p : RangePolicy} {as bs : List Nat} (h : effAddrs p as = .ok bs) :
    ∀ b ∈ bs, b < memSize := by
  obtain ⟨-, rfl⟩ := (effAddrs_eq_ok_iff p as bs).mp h
  intro b hb
  obtain ⟨a, -, rfl⟩ := List.mem_map.mp hb
  exact Nat.mod_lt _ (by decide)

/-- What `withEffAddrs` can do: take the fault of the first address out of range, or go on. -/
theorem withEffAddrs_cases {s : State} {addrs : List Nat}
    {go : List Nat → Host.Outcome State Fault Refusal} {o : Host.Outcome State Fault Refusal}
    (h : withEffAddrs s addrs go = o) :
    (∃ e, effAddrs s.cfg.rangePolicy addrs = .error e ∧ o = raise (.addressOutOfRange e) s) ∨
    (∃ as, effAddrs s.cfg.rangePolicy addrs = .ok as ∧ o = go as) := by
  unfold withEffAddrs at h
  split at h
  · rename_i e he
    exact .inl ⟨e, he, h.symm⟩
  · rename_i as he
    exact .inr ⟨as, he, h.symm⟩

theorem withEffAddrs_ok {s : State} {addrs as : List Nat}
    {go : List Nat → Host.Outcome State Fault Refusal}
    (h : effAddrs s.cfg.rangePolicy addrs = .ok as) : withEffAddrs s addrs go = go as := by
  simp [withEffAddrs, h]

theorem withEffAddrs_error {s : State} {addrs : List Nat} {e : Nat}
    {go : List Nat → Host.Outcome State Fault Refusal}
    (h : effAddrs s.cfg.rangePolicy addrs = .error e) :
    withEffAddrs s addrs go = raise (.addressOutOfRange e) s := by
  simp [withEffAddrs, h]

end Sys2Proof.Machine
end

