-- ==== Sys2Proof/Laws/PerInstr.lean ====
section
/-! SUPPORT. Per instruction: its encoding lies in its row of the opcode map. One lemma per constructor. -/

namespace Sys2Proof.Laws

/-- A word of shape op ++ nnn under the mask 0xF000. -/
theorem encNnn_mask (op : BitVec 4) (nnn : Nnn) : encNnn op nnn &&& 0xF000#16 = encNnn op 0 := by
  rw [← word_eq_encNnn (encNnn op nnn &&& 0xF000#16)]
  congr 1
  · exact (BitVec.extractLsb'_and ..).trans
      ((BitVec.and_allOnes (x := opField (encNnn op nnn))).trans (opField_encNnn op nnn))
  · exact (BitVec.extractLsb'_and ..).trans (BitVec.and_zero (x := nnnField (encNnn op nnn)))

/-- A word of shape op ++ x ++ nn under the mask 0xF000. -/
theorem encXnn_mask_op (op : BitVec 4) (x : Reg) (nn : Byte) :
    encXnn op x nn &&& 0xF000#16 = encXnn op 0 0 := by
  rw [← word_eq_encXnn (encXnn op x nn &&& 0xF000#16)]
  congr 1
  · exact (BitVec.extractLsb'_and ..).trans
      ((BitVec.and_allOnes (x := opField (encXnn op x nn))).trans (opField_encXnn op x nn))
  · exact congrArg BitVec.toFin ((BitVec.extractLsb'_and ..).trans (BitVec.and_zero ..))
  · exact (BitVec.extractLsb'_and ..).trans (BitVec.and_zero (x := nnField (encXnn op x nn)))

/-- A word of shape op ++ x ++ nn under the mask 0xF0FF. -/
theorem encXnn_mask_nn (op : BitVec 4) (x : Reg) (nn : Byte) :
    encXnn op x nn &&& 0xF0FF#16 = encXnn op 0 nn := by
  rw [← word_eq_encXnn (encXnn op x nn &&& 0xF0FF#16)]
  congr 1
  · exact (BitVec.extractLsb'_and ..).trans
      ((BitVec.and_allOnes (x := opField (encXnn op x nn))).trans (opField_encXnn op x nn))
  · exact congrArg BitVec.toFin ((BitVec.extractLsb'_and ..).trans (BitVec.and_zero ..))
  · exact (BitVec.extractLsb'_and ..).trans
      ((BitVec.and_allOnes (x := nnField (encXnn op x nn))).trans (nnField_encXnn op x nn))

/-- A word of shape op ++ x ++ y ++ n under the mask 0xF00F. -/
theorem encXyn_mask_n (op : BitVec 4) (x y : Reg) (n : BitVec 4) :
    encXyn op x y n &&& 0xF00F#16 = encXyn op 0 0 n := by
  rw [← word_eq_encXyn (encXyn op x y n &&& 0xF00F#16)]
  congr 1
  · exact (BitVec.extractLsb'_and ..).trans
      ((BitVec.and_allOnes (x := opField (encXyn op x y n))).trans (opField_encXyn op x y n))
  · exact congrArg BitVec.toFin ((BitVec.extractLsb'_and ..).trans (BitVec.and_zero ..))
  · exact congrArg BitVec.toFin ((BitVec.extractLsb'_and ..).trans (BitVec.and_zero ..))
  · exact (BitVec.extractLsb'_and ..).trans
      ((BitVec.and_allOnes (x := nField (encXyn op x y n))).trans (nField_encXyn op x y n))

/-- A word of shape op ++ x ++ y ++ n under the mask 0xF000. -/
theorem encXyn_mask_op (op : BitVec 4) (x y : Reg) (n : BitVec 4) :
    encXyn op x y n &&& 0xF000#16 = encXyn op 0 0 0 := by
  rw [← word_eq_encXyn (encXyn op x y n &&& 0xF000#16)]
  congr 1
  · exact (BitVec.extractLsb'_and ..).trans
      ((BitVec.and_allOnes (x := opField (encXyn op x y n))).trans (opField_encXyn op x y n))
  · exact congrArg BitVec.toFin ((BitVec.extractLsb'_and ..).trans (BitVec.and_zero ..))
  · exact congrArg BitVec.toFin ((BitVec.extractLsb'_and ..).trans (BitVec.and_zero ..))
  · exact (BitVec.extractLsb'_and ..).trans (BitVec.and_zero (x := nField (encXyn op x y n)))

/-- The mask of the row of R104 an instruction belongs to. -/
def rowMask : Instr → Word
  | .cls => 0xFFFF
  | .ret => 0xFFFF
  | .jp _ => 0xF000
  | .call _ => 0xF000
  | .seImm _ _ => 0xF000
  | .sneImm _ _ => 0xF000
  | .seReg _ _ => 0xF00F
  | .ldImm _ _ => 0xF000
  | .addImm _ _ => 0xF000
  | .ldReg _ _ => 0xF00F
  | .orReg _ _ => 0xF00F
  | .andReg _ _ => 0xF00F
  | .xorReg _ _ => 0xF00F
  | .addReg _ _ => 0xF00F
  | .subReg _ _ => 0xF00F
  | .shrReg _ _ => 0xF00F
  | .subnReg _ _ => 0xF00F
  | .shlReg _ _ => 0xF00F
  | .sneReg _ _ => 0xF00F
  | .ldI _ => 0xF000
  | .jpV0 _ => 0xF000
  | .rnd _ _ => 0xF000
  | .drw _ _ _ => 0xF000
  | .skp _ => 0xF0FF
  | .sknp _ => 0xF0FF
  | .addI _ => 0xF0FF
  | .ldF _ => 0xF0FF
  | .ldB _ => 0xF0FF
  | .ldStore _ => 0xF0FF
  | .ldLoad _ => 0xF0FF

/-- The pattern of the row of R104 an instruction belongs to. -/
def rowPattern : Instr → Word
  | .cls => 0x00E0
  | .ret => 0x00EE
  | .jp _ => 0x1000
  | .call _ => 0x2000
  | .seImm _ _ => 0x3000
  | .sneImm _ _ => 0x4000
  | .seReg _ _ => 0x5000
  | .ldImm _ _ => 0x6000
  | .addImm _ _ => 0x7000
  | .ldReg _ _ => 0x8000
  | .orReg _ _ => 0x8001
  | .andReg _ _ => 0x8002
  | .xorReg _ _ => 0x8003
  | .addReg _ _ => 0x8004
  | .subReg _ _ => 0x8005
  | .shrReg _ _ => 0x8006
  | .subnReg _ _ => 0x8007
  | .shlReg _ _ => 0x800E
  | .sneReg _ _ => 0x9000
  | .ldI _ => 0xA000
  | .jpV0 _ => 0xB000
  | .rnd _ _ => 0xC000
  | .drw _ _ _ => 0xD000
  | .skp _ => 0xE09E
  | .sknp _ => 0xE0A1
  | .addI _ => 0xF01E
  | .ldF _ => 0xF029
  | .ldB _ => 0xF033
  | .ldStore _ => 0xF055
  | .ldLoad _ => 0xF065

/-- The encoding of a well-formed instruction lies in its row of the opcode map. -/
def InRow.Statement (i : Instr) : Prop := i.wellFormed = true → encode i &&& rowMask i = rowPattern i

namespace InRow

theorem cls : Statement .cls := fun _ => rfl
theorem ret : Statement .ret := fun _ => rfl
theorem jp (nnn : Nnn) : Statement (.jp nnn) := fun _ => encNnn_mask _ _
theorem call (nnn : Nnn) : Statement (.call nnn) := fun _ => encNnn_mask _ _
theorem seImm (x : Reg) (nn : Byte) : Statement (.seImm x nn) := fun _ => encXnn_mask_op _ _ _
theorem sneImm (x : Reg) (nn : Byte) : Statement (.sneImm x nn) := fun _ => encXnn_mask_op _ _ _
theorem seReg (x y : Reg) : Statement (.seReg x y) := fun _ => encXyn_mask_n _ _ _ _
theorem ldImm (x : Reg) (nn : Byte) : Statement (.ldImm x nn) := fun _ => encXnn_mask_op _ _ _
theorem addImm (x : Reg) (nn : Byte) : Statement (.addImm x nn) := fun _ => encXnn_mask_op _ _ _
theorem ldReg (x y : Reg) : Statement (.ldReg x y) := fun _ => encXyn_mask_n _ _ _ _
theorem orReg (x y : Reg) : Statement (.orReg x y) := fun _ => encXyn_mask_n _ _ _ _
theorem andReg (x y : Reg) : Statement (.andReg x y) := fun _ => encXyn_mask_n _ _ _ _
theorem xorReg (x y : Reg) : Statement (.xorReg x y) := fun _ => encXyn_mask_n _ _ _ _
theorem addReg (x y : Reg) : Statement (.addReg x y) := fun _ => encXyn_mask_n _ _ _ _
theorem subReg (x y : Reg) : Statement (.subReg x y) := fun _ => encXyn_mask_n _ _ _ _
theorem shrReg (x y : Reg) : Statement (.shrReg x y) := fun _ => encXyn_mask_n _ _ _ _
theorem subnReg (x y : Reg) : Statement (.subnReg x y) := fun _ => encXyn_mask_n _ _ _ _
theorem shlReg (x y : Reg) : Statement (.shlReg x y) := fun _ => encXyn_mask_n _ _ _ _
theorem sneReg (x y : Reg) : Statement (.sneReg x y) := fun _ => encXyn_mask_n _ _ _ _
theorem ldI (nnn : Nnn) : Statement (.ldI nnn) := fun _ => encNnn_mask _ _
theorem jpV0 (nnn : Nnn) : Statement (.jpV0 nnn) := fun _ => encNnn_mask _ _
theorem rnd (x : Reg) (nn : Byte) : Statement (.rnd x nn) := fun _ => encXnn_mask_op _ _ _
theorem drw (x y : Reg) (n : Nat) : Statement (.drw x y n) := fun _ => encXyn_mask_op _ _ _ _
theorem skp (x : Reg) : Statement (.skp x) := fun _ => encXnn_mask_nn _ _ _
theorem sknp (x : Reg) : Statement (.sknp x) := fun _ => encXnn_mask_nn _ _ _
theorem addI (x : Reg) : Statement (.addI x) := fun _ => encXnn_mask_nn _ _ _
theorem ldF (x : Reg) : Statement (.ldF x) := fun _ => encXnn_mask_nn _ _ _
theorem ldB (x : Reg) : Statement (.ldB x) := fun _ => encXnn_mask_nn _ _ _
theorem ldStore (x : Reg) : Statement (.ldStore x) := fun _ => encXnn_mask_nn _ _ _
theorem ldLoad (x : Reg) : Statement (.ldLoad x) := fun _ => encXnn_mask_nn _ _ _

end InRow

end Sys2Proof.Laws
end

