-- ==== Sys2Proof/Laws/Registers.lean ====
section
/-! SUPPORT. Reads after writes of the register file, and what `loadRegsFrom` writes. -/

namespace Sys2Proof.Machine

/-- Reading a register after writing one. -/
theorem getV_setV (r q : Reg) (b : Byte) (s : State) :
    getV (setV r b s) q = if q = r then b else getV s q := by
  simp only [getV, setV, Vector.getElem_set, Fin.ext_iff]
  split <;> split <;> first | rfl | omega

@[simp] theorem getV_setV_same (r : Reg) (b : Byte) (s : State) : getV (setV r b s) r = b := by
  simp [getV_setV]

theorem getV_setV_other {r q : Reg} (h : q ≠ r) (b : Byte) (s : State) :
    getV (setV r b s) q = getV s q := by simp [getV_setV, h]

/-- `getV` reads nothing but the register file. -/
theorem getV_congr {s t : State} (h : t.v = s.v) (r : Reg) : getV t r = getV s r := by simp [getV, h]

/-- `loadRegsFrom` writes registers only: it is the old state with another register file. -/
theorem loadRegsFrom_only (k : Nat) (bs : List Byte) (s : State) :
    loadRegsFrom k bs s = { s with v := (loadRegsFrom k bs s).v } := by
  induction bs generalizing k s with
  | nil => rfl
  | cons b bs ih =>
    rw [loadRegsFrom, ih]
    split <;> rfl

/-- `loadRegsFrom` writes the list to V[k], V[k+1], … and no other register. -/
theorem getV_loadRegsFrom (k : Nat) (bs : List Byte) (s : State) (r : Reg) :
    getV (loadRegsFrom k bs s) r =
      if k ≤ r.val ∧ r.val < k + bs.length then bs.getD (r.val - k) 0 else getV s r := by
  induction bs generalizing k s with
  | nil => simp [loadRegsFrom]
  | cons b bs ih =>
    rw [loadRegsFrom, ih]
    have hr := r.isLt
    by_cases hk : k = r.val
    · subst hk
      simp [hr]
    · have hne : ∀ h : k < 16, r ≠ ⟨k, h⟩ := fun h e => hk (by rw [e])
      have hget : getV (if h : k < 16 then setV ⟨k, h⟩ b s else s) r = getV s r := by
        split
        · exact getV_setV_other (hne _) b s
        · rfl
      rw [hget]
      by_cases h2 : k + 1 ≤ r.val ∧ r.val < k + 1 + bs.length
      · have h3 : k ≤ r.val ∧ r.val < k + (b :: bs).length := by simp only [List.length_cons]; omega
        have h4 : r.val - k = (r.val - (k + 1)) + 1 := by omega
        rw [if_pos h2, if_pos h3, h4, List.getD_cons_succ]
      · have h3 : ¬ (k ≤ r.val ∧ r.val < k + (b :: bs).length) := by simp only [List.length_cons]; omega
        rw [if_neg h2, if_neg h3]

theorem mem_regsThrough (x r : Reg) : r ∈ regsThrough x ↔ r ≤ x := by simp [regsThrough]

/-- A flag as VF holds it is 0 or 1. -/
theorem flagByte_zero_or_one (f : Bool) : flagByte f = 0 ∨ flagByte f = 1 := by cases f <;> simp [flagByte]

theorem flagByte_eq_one (f : Bool) : flagByte f = 1 ↔ f = true := by cases f <;> simp [flagByte]

/-- What the result-and-flag write leaves in a register. -/
theorem getV_setResultAndFlag (x q : Reg) (b : Byte) (f : Bool) (s : State) :
    getV (setResultAndFlag x b f s) q =
      if q = 15 then flagByte f else if q = x then b else getV s q := by
  simp [setResultAndFlag, setFlag, getV_setV]

/-- The result-and-flag write changes nothing but the register file. -/
theorem setResultAndFlag_only (x : Reg) (b : Byte) (f : Bool) (s : State) :
    setResultAndFlag x b f s = { s with v := (setResultAndFlag x b f s).v } := rfl

end Sys2Proof.Machine
end

