-- ==== Sys2Proof/Laws/Step.lean ====
section
/-! SUPPORT. What a CPU step, a scheduler iteration, a load and a step can do, each said once. -/

namespace Sys2Proof.Machine

/-- What a CPU step can do: the fetch fault, the fault of a word of no row, or one instruction. -/
theorem cpuStep_cases (s : State) :
    (∃ a, fetch16 s = .error a ∧ cpuStep s = .next (takeFault (.addressOutOfRange a) s.pc s)) ∨
    (∃ w, fetch16 s = .ok w ∧ decodeWord w = none ∧
      cpuStep s = raise (.unimplementedOpcode w) (advancePc s)) ∨
    (∃ w i, fetch16 s = .ok w ∧ decodeWord w = some i ∧ cpuStep s = exec i (advancePc s)) := by
  unfold cpuStep
  cases hf : fetch16 s with
  | error a => exact .inl ⟨a, rfl, rfl⟩
  | ok w =>
    cases hd : decodeWord w with
    | none => exact .inr (.inl ⟨w, rfl, hd, by simp only [hd]⟩)
    | some i => exact .inr (.inr ⟨w, i, rfl, hd, by simp only [hd]⟩)

/-- A fetch fails only under `FAULT`, on the first of pc and pc + 1 that is out of range. -/
theorem fetch16_error {s : State} {a : Nat} (h : fetch16 s = .error a) :
    s.cfg.rangePolicy = .fault ∧ 4096 ≤ a := by
  unfold fetch16 at h
  cases hg : fetchAddrs s with
  | ok as => rw [hg] at h; cases h
  | error e =>
    rw [hg] at h
    cases h
    obtain ⟨hp, _, _, _, _, ha⟩ := (effAddrs_eq_error_iff _ _ _).mp hg
    exact ⟨hp, ha⟩

/-- A step of a block that answers next ran. -/
theorem whenRunning_next {s t : State} {go : State → Host.Outcome State Fault Refusal}
    (h : whenRunning s go = .next t) : s.run = .running ∧ go s = .next t := by
  unfold whenRunning at h
  split at h <;> first | exact ⟨‹_›, h⟩ | cases h

theorem whenRunning_running {s : State} (go : State → Host.Outcome State Fault Refusal)
    (h : s.run = .running) : whenRunning s go = go s := by
  simp [whenRunning, h]

/-- What the step half of an iteration can answer: no step was due, or one CPU step, with an interval
subtracted if it left the block RUNNING. -/
theorem stepPhase_next {s u : State} (h : stepPhase s = .next u) :
    (s.sinceLastStep < stepInterval s.cfg ∧ u = s) ∨
    (stepInterval s.cfg ≤ s.sinceLastStep ∧ ∃ u0, cpuStep s = .next u0 ∧
      ((u0.run ≠ .running ∧ u = u0) ∨
        (u0.run = .running ∧ u = { u0 with sinceLastStep := u0.sinceLastStep - stepInterval u0.cfg }))) := by
  unfold stepPhase at h
  split at h
  · rename_i hle
    refine .inr ⟨hle, ?_⟩
    cases hc : cpuStep s with
    | next u0 =>
      refine ⟨u0, rfl, ?_⟩
      rw [hc] at h
      dsimp only at h
      split at h
      · rename_i hr; cases h; exact .inr ⟨hr, rfl⟩
      · rename_i hr; cases h; exact .inl ⟨hr, rfl⟩
    | fault f => rw [hc] at h; cases h
    | refused r => rw [hc] at h; cases h
  · rename_i hle
    cases h
    exact .inl ⟨not_le.mp hle, rfl⟩

/-- What an iteration can answer: the quit, or its step half and then a tick if one is due and the
block still runs. -/
theorem schedulerIteration_next {e : Rat} {q : Bool} {s t : State}
    (h : schedulerIteration e q s = .next t) :
    (q = true ∧ t = { s with run := .stopped }) ∨
    (q = false ∧ ∃ u, stepPhase (accumulate e s) = .next u ∧
      ((u.run = .running ∧ t = framePhase u) ∨ (u.run ≠ .running ∧ t = u))) := by
  unfold schedulerIteration at h
  split at h
  · rename_i hq; cases h; exact .inl ⟨hq, rfl⟩
  · rename_i hq
    refine .inr ⟨by simpa using hq, ?_⟩
    cases hs : stepPhase (accumulate e s) with
    | next u =>
      refine ⟨u, rfl, ?_⟩
      rw [hs] at h
      dsimp only at h
      split at h
      · rename_i hr; cases h; exact .inl ⟨hr, rfl⟩
      · rename_i hr; cases h; exact .inr ⟨hr, rfl⟩
    | fault f => rw [hs] at h; cases h
    | refused r => rw [hs] at h; cases h

/-- What the frame half can do. -/
theorem framePhase_cases (s : State) :
    (s.sinceLastFrame < frameInterval s.cfg ∧ framePhase s = s) ∨
    (frameInterval s.cfg ≤ s.sinceLastFrame ∧ framePhase s = frameTick s) := by
  unfold framePhase
  split
  · rename_i h; exact .inr ⟨h, rfl⟩
  · rename_i h; exact .inl ⟨not_le.mp h, rfl⟩

/-- What a load can do. Of the state it changes memory, run and the load's answer at most. -/
theorem loadProgram_cases (bytes : List Byte) (s : State) :
    (bytes.length = 0 ∧ loadProgram bytes s = { s with load := some .empty }) ∨
    (3584 < bytes.length ∧ loadProgram bytes s = { s with load := some .tooLarge }) ∨
    (0 < bytes.length ∧ bytes.length ≤ 3584 ∧ loadProgram bytes s =
      { s with mem := (writeBytes (romCells bytes) s).mem, run := .running, load := some .ok }) := by
  unfold loadProgram
  split
  · rename_i h; exact .inl ⟨h, rfl⟩
  · rename_i h
    split
    · rename_i h'; exact .inr (.inl ⟨h', rfl⟩)
    · rename_i h'
      refine .inr (.inr ⟨Nat.pos_of_ne_zero h, not_lt.mp h', ?_⟩)
      rw [writeBytes_only]

/-- What a step that answers next can be: a CPU step, a reset, a load or an iteration. -/
theorem step_next {s t : State} (h : step s = .next t) :
    (s.hostIn = [] ∧ s.run = .running ∧ cpuStep s = .next t) ∨
    (∃ rest, s.hostIn = .reset :: rest ∧ t = resetBlock { s with hostIn := rest }) ∨
    (∃ bytes rest, s.hostIn = .load bytes :: rest ∧ s.run = .awaitingLoad ∧ s.load = none ∧
      t = loadProgram bytes { s with hostIn := rest }) ∨
    (∃ e q rest, s.hostIn = .iteration e q :: rest ∧ s.run = .running ∧
      schedulerIteration e q { s with hostIn := rest } = .next t) := by
  unfold step at h
  split at h
  · rename_i hh
    exact .inl ⟨hh, (whenRunning_next h).1, (whenRunning_next h).2⟩
  · rename_i e rest hh
    unfold hostStep at h
    split at h
    · cases h; exact .inr (.inl ⟨rest, hh, rfl⟩)
    · split at h
      · rename_i bytes hc; cases h; exact .inr (.inr (.inl ⟨bytes, rest, hh, hc.1, hc.2, rfl⟩))
      · cases h
    · rename_i el q
      exact .inr (.inr (.inr ⟨el, q, rest, hh, (whenRunning_next h).1, (whenRunning_next h).2⟩))

end Sys2Proof.Machine
end

