-- ==== Sys2Proof/Tests/Slice0.lean ====
section
/-! SUPPORT. The model's own tests. Expected results are the vectors of spec/95_test_vectors.md (E1 to E9,
V1 to V107), named in each comment, or are worked by hand from the rule named there. The witnesses at the
end show states and operands that meet the hypotheses of the obligations. -/

namespace Sys2Proof.Tests

open Sys2Proof Sys2Proof.Machine

/-! ### Helpers -/

/-- The default parameters with `IPS` = 120, a value chosen for the tests (it is OPEN, D11). -/
def cfg120 : Config := { Config.default with ips := 120 }

/-- A RUNNING block with an empty program: the start state of the vectors. -/
def base : State := { State.resetWith cfg120 with run := .running, load := some .ok }

/-- `base` under `RANGE_POLICY = WRAP`. -/
def baseWrap : State := { base with cfg := { cfg120 with rangePolicy := .wrap } }

/-- `base` under `SHL_VARIANT = SOURCE_RIGHT`. -/
def baseRight : State := { base with cfg := { cfg120 with shlVariant := .sourceRight } }

/-- `p` holds of the next state. -/
def onNext (o : Host.Outcome State Fault Refusal) (p : State → Bool) : Bool :=
  match o with
  | .next t => p t
  | .fault _ => false
  | .refused _ => false

/-- `p` holds after one step that fetches and runs the word `w`. -/
def onWord (s : State) (w : Nat) (p : State → Bool) : Bool := onNext (step (s.withFetchWord 16 w)) p

/-- A fault was taken with this record, pc left at `pc`. -/
def faulted (t : State) (c : FaultCause) (a pc : Word) : Bool :=
  t.run == .faulted && t.fault == some ⟨c, a⟩ && t.pc == pc

/-! ### Well-formedness -/

theorem test_wellFormed_refuses_wide_row_count : (Instr.drw 0 0 16).wellFormed = false := by decide

theorem test_wellFormed_takes_full_row_count : (Instr.drw 15 15 15).wellFormed = true := by decide

/-! ### Decoding: a word of every row, bit by bit from the "encoding" patterns of the opcode table -/

theorem test_decode_control :
    decodeWord 0b0000000011100000#16 = some .cls ∧
    decodeWord 0b0000000011101110#16 = some .ret ∧
    decodeWord 0b0001001000110100#16 = some (.jp 0x234#12) ∧
    decodeWord 0b0010001000001100#16 = some (.call 0x20C#12) ∧
    decodeWord 0b0011001101000010#16 = some (.seImm 3 0x42#8) ∧
    decodeWord 0b0100001101000010#16 = some (.sneImm 3 0x42#8) ∧
    decodeWord 0b0101000100100000#16 = some (.seReg 1 2) ∧
    decodeWord 0b1001000100100000#16 = some (.sneReg 1 2) ∧
    decodeWord 0b1011001100000000#16 = some (.jpV0 0x300#12) := by decide

theorem test_decode_alu :
    decodeWord 0b0110101000101011#16 = some (.ldImm 10 0x2B#8) ∧
    decodeWord 0b0111000100000010#16 = some (.addImm 1 0x02#8) ∧
    decodeWord 0b1000000100100000#16 = some (.ldReg 1 2) ∧
    decodeWord 0b1000000100100001#16 = some (.orReg 1 2) ∧
    decodeWord 0b1000000100100010#16 = some (.andReg 1 2) ∧
    decodeWord 0b1000000100100011#16 = some (.xorReg 1 2) ∧
    decodeWord 0b1000000100100100#16 = some (.addReg 1 2) ∧
    decodeWord 0b1000000100100101#16 = some (.subReg 1 2) ∧
    decodeWord 0b1000000111110110#16 = some (.shrReg 1 15) ∧
    decodeWord 0b1000000100100111#16 = some (.subnReg 1 2) ∧
    decodeWord 0b1000000100101110#16 = some (.shlReg 1 2) := by decide

theorem test_decode_index_display_input :
    decodeWord 0b1010001011110000#16 = some (.ldI 0x2F0#12) ∧
    decodeWord 0b1100001100001111#16 = some (.rnd 3 0x0F#8) ∧
    decodeWord 0b1101000100100011#16 = some (.drw 1 2 3) ∧
    decodeWord 0b1110001010011110#16 = some (.skp 2) ∧
    decodeWord 0b1110001010100001#16 = some (.sknp 2) ∧
    decodeWord 0b1111001000011110#16 = some (.addI 2) ∧
    decodeWord 0b1111000100101001#16 = some (.ldF 1) ∧
    decodeWord 0b1111101000110011#16 = some (.ldB 10) ∧
    decodeWord 0b1111001001010101#16 = some (.ldStore 2) ∧
    decodeWord 0b1111001001100101#16 = some (.ldLoad 2) := by decide

/-- V1 to V5, and the rest of R105's named words. -/
theorem test_decode_refuses_unimplemented :
    decodeWord 0x0000#16 = none ∧ decodeWord 0x5121#16 = none ∧ decodeWord 0x8008#16 = none ∧
    decodeWord 0x800F#16 = none ∧ decodeWord 0x9121#16 = none ∧ decodeWord 0xE19F#16 = none ∧
    decodeWord 0xF00A#16 = none ∧ decodeWord 0xF007#16 = none ∧ decodeWord 0xF015#16 = none ∧
    decodeWord 0xF018#16 = none ∧ decodeWord 0x0123#16 = none := by decide

theorem test_decode_rejects_by_name :
    decode [0x50, 0x01] = .error (.unimplementedOpcode 0x5001#16) ∧
    decode [0x12] = .error .truncated ∧ decode [] = .error .truncated := by decide

/-- V9: big-endian. -/
theorem test_decodeTableWord_big_endian : decodeTableWord 16 0x1234 = some (.jp 0x234#12) := by decide

theorem test_asm_text :
    asmText (.drw 2 15 12) = "DRW V2, VF, 12" ∧ asmText (.ldStore 1) = "LD [I], V1" := by decide

/-! ### Control transfer (L2.2) -/

/-- V10. -/
theorem test_jp : onWord base 0x1234 (fun t => t.pc == 0x234) = true := by decide

/-- V11. -/
theorem test_call_pushes :
    onWord { base with pc := 0x204 } 0x220C
      (fun t => t.stack[0] == 0x206 && t.sp == 1 && t.pc == 0x20C) = true := by decide

/-- V14. -/
theorem test_call_overflow :
    onWord { base with sp := 16 } 0x2300
      (fun t => faulted t .stackOverflow 0x200 0x202 && t.sp == 16 && t.fault.map (·.cause.code) == some 2) =
        true := by decide

/-- V12. -/
theorem test_ret_pops :
    onWord { base with sp := 1, stack := base.stack.set 0 0x206 } 0x00EE
      (fun t => t.pc == 0x206 && t.sp == 0 && t.stack[0] == 0x206) = true := by decide

/-- V13. -/
theorem test_ret_underflow :
    onWord base 0x00EE (fun t => faulted t .stackUnderflow 0x200 0x202 && t.sp == 0) = true := by
  decide

/-- V15, V16. -/
theorem test_se_imm :
    onWord (setV 3 0x42 base) 0x3342 (fun t => t.pc == 0x204) = true ∧
    onWord (setV 3 0x41 base) 0x3342 (fun t => t.pc == 0x202) = true := by decide

/-- V17. -/
theorem test_sne_imm : onWord (setV 3 0x41 base) 0x4342 (fun t => t.pc == 0x204) = true := by decide

/-- V18, V21. -/
theorem test_se_reg :
    onWord (setV 1 7 (setV 2 7 base)) 0x5120 (fun t => t.pc == 0x204) = true ∧
    onWord base 0x5110 (fun t => t.pc == 0x204) = true := by decide

/-- V19, V20. -/
theorem test_sne_reg :
    onWord (setV 1 7 (setV 2 7 base)) 0x9120 (fun t => t.pc == 0x202) = true ∧
    onWord (setV 1 7 (setV 2 8 base)) 0x9120 (fun t => t.pc == 0x204) = true := by decide

/-- V22, V23. -/
theorem test_jp_v0 :
    onWord (setV 0 0x10 base) 0xB300 (fun t => t.pc == 0x310) = true ∧
    onWord (setV 0 0xFF base) 0xBFFF (fun t => t.pc == 0x10FE && t.run == .running) = true := by decide

/-! ### Fetch (V23 to V25, V1) -/

theorem test_fetch_faults :
    onNext (step { base with pc := 0x10FE })
      (fun t => faulted t (.addressOutOfRange 0x10FE) 0x10FE 0x10FE) = true ∧
    onNext (step { base with pc := 0xFFF })
      (fun t => faulted t (.addressOutOfRange 0x1000) 0xFFF 0xFFF) = true := by decide

theorem test_fetch_wraps :
    onNext (step { baseWrap with pc := 0xFFF, mem := [(0x000, 0x34), (0xFFF, 0x12)] })
      (fun t => t.pc == 0x234) = true := by decide

theorem test_unimplemented_word_faults :
    onNext (step base) (fun t => faulted t (.unimplementedOpcode 0x0000) 0x200 0x202) = true := by
  decide

/-! ### Register loads and ALU (L2.3, E1 to E4) -/

/-- V30. -/
theorem test_ld_imm : onWord base 0x6A2B (fun t => getV t 10 == 0x2B) = true := by decide

/-- V31, V32. -/
theorem test_add_imm :
    onWord (setV 1 0xFF (setV 15 9 base)) 0x7102 (fun t => getV t 1 == 1 && getV t 15 == 9) = true ∧
    onWord (setV 15 0xFF base) 0x7F01 (fun t => getV t 15 == 0) = true := by decide

/-- V33. -/
theorem test_ld_reg : onWord (setV 2 0x99 base) 0x8120 (fun t => getV t 1 == 0x99) = true := by decide

/-- V34. -/
theorem test_or : onWord (setV 0 0x0F (setV 1 0xF0 (setV 15 1 base))) 0x8011
    (fun t => getV t 0 == 0xFF && getV t 15 == 1) = true := by decide

/-- V35. -/
theorem test_and : onWord (setV 1 0x3C (setV 2 0x0F base)) 0x8122 (fun t => getV t 1 == 0x0C) = true := by
  decide

/-- V36. -/
theorem test_xor : onWord (setV 1 0x3C (setV 2 0x0F base)) 0x8123 (fun t => getV t 1 == 0x33) = true := by
  decide

/-- E1, V40, V41. -/
theorem test_add_reg :
    onWord (setV 0 0xFF (setV 1 1 base)) 0x8014 (fun t => getV t 0 == 0 && getV t 15 == 1) = true ∧
    onWord (setV 15 0xFF (setV 1 2 base)) 0x8F14 (fun t => getV t 15 == 1) = true ∧
    onWord (setV 0 0x10 (setV 15 1 base)) 0x80F4 (fun t => getV t 0 == 0x11 && getV t 15 == 0) = true := by
  decide

/-- E2, V43, V44. -/
theorem test_sub :
    onWord (setV 0 5 (setV 1 0x0A base)) 0x8015 (fun t => getV t 0 == 0xFB && getV t 15 == 0) = true ∧
    onWord (setV 0 7 (setV 1 7 base)) 0x8015 (fun t => getV t 0 == 0 && getV t 15 == 0) = true ∧
    onWord (setV 15 0x10 (setV 1 1 base)) 0x8F15 (fun t => getV t 15 == 1) = true := by decide

/-- V45, V47. -/
theorem test_subn :
    onWord (setV 0 5 (setV 1 0x0A base)) 0x8017 (fun t => getV t 0 == 5 && getV t 15 == 1) = true ∧
    onWord (setV 0 0x0A (setV 1 5 base)) 0x8017 (fun t => getV t 0 == 0xFB && getV t 15 == 0) = true := by
  decide

/-- E3, V54. -/
theorem test_shr :
    onWord (setV 0 0x81 base) 0x8006 (fun t => getV t 0 == 0x40 && getV t 15 == 1) = true ∧
    onWord (setV 1 5 (setV 2 0x77 base)) 0x8126
      (fun t => getV t 1 == 2 && getV t 15 == 1 && getV t 2 == 0x77) = true := by decide

/-- E4, V50. -/
theorem test_shl_left :
    onWord (setV 0 0x81 base) 0x800E (fun t => getV t 0 == 2 && getV t 15 == 1) = true ∧
    onWord (setV 0 0x40 base) 0x800E (fun t => getV t 0 == 0x80 && getV t 15 == 0) = true := by decide

/-- V53: the fields the spec fixes. -/
theorem test_shl_source_right :
    onWord (setV 0 0x81 baseRight) 0x800E (fun t => getV t 0 == 0x40 && t.draws == 1) = true := by decide

/-! ### Index register and memory (L2.4, E5) -/

/-- V60. -/
theorem test_ld_i : onWord base 0xA2F0 (fun t => t.i == 0x02F0) = true := by decide

/-- V62, V63. -/
theorem test_add_i :
    onWord { setV 0 1 base with i := 0xFFFF } 0xF01E (fun t => t.i == 0 && getV t 15 == 0) = true ∧
    onWord { setV 0 1 base with i := 0x0FFF } 0xF01E (fun t => t.i == 0x1000 && t.run == .running) = true := by
  decide

/-- V64, V66. -/
theorem test_ld_f :
    onWord (setV 1 5 base) 0xF129 (fun t => t.i == 0x069) = true ∧
    onWord (setV 1 0xFF base) 0xF129 (fun t => t.i == 0x54B) = true := by decide

/-- E5, V69. -/
theorem test_ld_b :
    onWord { setV 0 0xEA base with i := 0x300 } 0xF033
      (fun t => readByte t 0x300 == 2 && readByte t 0x301 == 3 && readByte t 0x302 == 4 && t.i == 0x300) = true ∧
    onWord { setV 0 0xEA base with i := 0xFFE } 0xF033
      (fun t => faulted t (.addressOutOfRange 0x1000) 0x200 0x202 && readByte t 0xFFE == 0) = true := by
  decide

/-- V70. -/
theorem test_ld_b_wraps :
    onWord { setV 0 0xEA baseWrap with i := 0xFFE } 0xF033
      (fun t => readByte t 0xFFE == 2 && readByte t 0xFFF == 3 && readByte t 0 == 4) = true := by decide

/-- V71, V72. -/
theorem test_ld_store :
    onWord { setV 0 1 (setV 1 2 (setV 2 3 base)) with i := 0x300 } 0xF255
      (fun t => readByte t 0x300 == 1 && readByte t 0x301 == 2 && readByte t 0x302 == 3 && readByte t 0x303 == 0) =
        true ∧
    onWord { setV 0 1 base with i := 0xFF1 } 0xFF55
      (fun t => faulted t (.addressOutOfRange 0x1000) 0x200 0x202 && readByte t 0xFF1 == 0) = true := by
  decide

/-- V75, and P2's load of three bytes. -/
theorem test_ld_load :
    onWord { base with i := 0x300, mem := [(0x300, 2), (0x301, 3), (0x302, 4)] } 0xF265
      (fun t => getV t 0 == 2 && getV t 1 == 3 && getV t 2 == 4 && getV t 3 == 0 && t.i == 0x300) = true ∧
    onWord { base with i := 0x1000 } 0xF265
      (fun t => faulted t (.addressOutOfRange 0x1000) 0x200 0x202) = true := by decide

/-! ### Display (L2.5) -/

/-- V80. -/
theorem test_drw_glyph :
    onWord { base with i := 0x050 } 0xD015
      (fun t => pixel t.fb 0 3 && pixel t.fb 1 3 && !pixel t.fb 1 1 && pixel t.fb 4 0 && !pixel t.fb 0 4 &&
        !pixel t.fb 5 0 && getV t 15 == 0) = true := by decide

/-- V81. -/
theorem test_drw_collides :
    onWord { base with i := 0x050, fb := flipPixel clearedFb 0 0 } 0xD011
      (fun t => !pixel t.fb 0 0 && pixel t.fb 0 1 && getV t 15 == 1) = true := by decide

/-- V84. -/
theorem test_drw_clips :
    onWord { setV 0 62 (setV 1 30 base) with i := 0x050 } 0xD015
      (fun t => pixel t.fb 30 62 && pixel t.fb 30 63 && pixel t.fb 31 62 && !pixel t.fb 31 63 &&
        !pixel t.fb 30 0 && !pixel t.fb 0 62 && getV t 15 == 0) = true := by decide

/-- V86, V87. -/
theorem test_drw_reads_on_screen_rows_only :
    onWord { base with i := 0xFF8 } 0xD01F (fun t => faulted t (.addressOutOfRange 0x1000) 0x200 0x202) = true ∧
    onWord { setV 1 24 base with i := 0xFF8 } 0xD01F (fun t => t.run == .running && getV t 15 == 0) = true := by
  decide

/-- V85 (n = 0), V88 (the origin from the old VF). -/
theorem test_drw_corners :
    onWord { setV 15 1 base with i := 0x050, fb := flipPixel clearedFb 0 0 } 0xD010
      (fun t => pixel t.fb 0 0 && getV t 15 == 0) = true ∧
    onWord { setV 15 3 base with i := 0x050 } 0xDFF1
      (fun t => pixel t.fb 3 3 && pixel t.fb 3 6 && !pixel t.fb 0 0 && getV t 15 == 0) = true := by decide

/-- V89. -/
theorem test_cls :
    onWord { setV 15 1 base with fb := flipPixel clearedFb 5 6 } 0x00E0
      (fun t => !pixel t.fb 5 6 && getV t 15 == 1 && t.displayOut == [.clear]) = true := by decide

/-! ### Random and keypad (L2.6) -/

/-- V90, V91. -/
theorem test_rnd :
    onWord { base with entropyIn := [0xA7, 0x11] } 0xC30F
      (fun t => getV t 3 == 0x07 && t.entropyIn == [0x11]) = true ∧
    onWord { base with entropyIn := [0xA7] } 0xC300 (fun t => getV t 3 == 0) = true := by decide

/-- V93, V94. -/
theorem test_skp :
    onWord { setV 2 0x0A base with keysIn := [0x0400] } 0xE29E (fun t => t.pc == 0x204) = true ∧
    onWord { setV 2 0x0A base with keysIn := [0xFBFF] } 0xE29E (fun t => t.pc == 0x202) = true := by decide

/-- V95, V96. -/
theorem test_sknp :
    onWord { setV 2 0x0A base with keysIn := [0xFBFF] } 0xE2A1 (fun t => t.pc == 0x204) = true ∧
    onWord { setV 2 0x0A base with keysIn := [0x0400] } 0xE2A1 (fun t => t.pc == 0x202) = true := by decide

/-- V97, V98. -/
theorem test_key_range :
    onWord (setV 2 0x10 base) 0xE29E (fun t => faulted t (.keyIndexOutOfRange 0x10) 0x200 0x202) = true ∧
    onWord { setV 2 0x1A baseWrap with keysIn := [0x0400] } 0xE29E (fun t => t.pc == 0x204) = true := by
  decide

/-! ### Load, scheduler, timers (L2.7, E6) -/

/-- E6. -/
theorem test_load_answers :
    onNext (step { State.reset with hostIn := [.load []] })
      (fun t => t.load == some .empty && t.run == .awaitingLoad) = true ∧
    onNext (step { State.reset with hostIn := [.load [0x12, 0x00]] })
      (fun t => t.load == some .ok && t.run == .running && t.mem == [(0x200, 0x12)]) = true := by decide

/-- V100, its first two iterations: S, then S and T, at `JP 0x200`. -/
theorem test_iteration_steps :
    onNext (step { base with mem := [(0x200, 0x12)], hostIn := [.iteration (1 / 120) false] })
      (fun t => t.pc == 0x200 && t.sinceLastStep == 0 && t.sinceLastFrame == 1 / 120 && t.displayOut.isEmpty) =
        true := by decide +kernel

theorem test_iteration_ticks_after_step :
    onNext (step { base with
        mem := [(0x200, 0x12)], sinceLastFrame := 1 / 120, hostIn := [.iteration (1 / 120) false] })
      (fun t => t.pc == 0x200 && t.sinceLastStep == 0 && t.sinceLastFrame == 0 && t.displayOut.length == 1) =
        true := by decide +kernel

/-- V103. -/
theorem test_quit_stops :
    onNext (step { base with hostIn := [.iteration 1 true] })
      (fun t => t.run == .stopped && t.pc == 0x200 && t.sinceLastStep == 0) = true := by decide +kernel

/-- V106: the word at 0x200 is 0x0000; its fault ends the iteration before the tick. -/
theorem test_fault_ends_the_iteration :
    onNext (step { base with hostIn := [.iteration 1 false] })
      (fun t => t.run == .faulted && t.displayOut.isEmpty && t.sinceLastFrame == 1) = true := by decide +kernel

/-- V104: one tick of each kind. -/
theorem test_timers_floor_at_zero :
    (frameTimers { base with dt := 2, st := 0 }).dt = 1 ∧ (frameTimers { base with dt := 2, st := 0 }).st = 0 := by
  decide

/-- R110, R339: no step past a fault. -/
theorem test_no_step_past_a_fault :
    step { base with run := .faulted } = .fault (.blockFaulted none) := by rfl

/-! ### Witnesses: states and operands that meet the hypotheses of the obligations

Each name ends in the obligation's name. A statement with several clauses has a witness for each, at a
boundary value. A hypothesis that `exec` or `step` answers next is met by the state named, by computation. -/

/-- Whether `o` is a next state with `p`, as a proposition the witnesses below state. -/
def answers (o : Host.Outcome State Fault Refusal) (p : State → Bool) : Prop := ∃ t, o = .next t ∧ p t = true

theorem answers_of_onNext {o : Host.Outcome State Fault Refusal} {p : State → Bool} (h : onNext o p = true) :
    answers o p := by
  cases o with
  | next t => exact ⟨t, rfl, h⟩
  | fault f => simp [onNext] at h
  | refused r => simp [onNext] at h

theorem cfg120_wf : cfg120.wf := ⟨rfl, by norm_num [cfg120], by norm_num [cfg120, Config.default]⟩

theorem witness_StepKeepsInvariant :
    ∃ s : State, s.Inv ∧ answers (step s) (fun t => t.pc == 0x234) := by
  refine ⟨{ base with mem := [(0x200, 0x12), (0x201, 0x34)] }, ?_, answers_of_onNext (by decide)⟩
  exact ⟨by decide, cfg120_wf, le_refl _, le_refl _, by simp [base, State.resetWith], by simp [base, State.resetWith],
    by simp [base], by simp [base, State.resetWith]⟩

/-- A faulted, a stopped and an awaiting state have the invariant too. -/
theorem witness_StepKeepsInvariant_halted :
    (State.resetWith cfg120).Inv ∧ ({ base with run := .stopped } : State).Inv ∧
    (takeFault .stackUnderflow 0x200 base).Inv := by
  refine ⟨⟨rfl, cfg120_wf, le_refl _, le_refl _, ?_, ?_, ?_, ?_⟩, ⟨rfl, cfg120_wf, le_refl _, le_refl _, ?_, ?_, ?_, ?_⟩,
    ⟨rfl, cfg120_wf, le_refl _, le_refl _, ?_, ?_, ?_, ?_⟩⟩ <;> simp [base, State.resetWith, takeFault]

/-- `LoadProgramAnswers`: lengths 0, 1, 3584 and 3585 after reset, and the second load. -/
theorem witness_LoadProgramAnswers :
    State.reset.run = .awaitingLoad ∧ State.reset.load = none ∧
    ([] : List Byte).length = 0 ∧ ([0x12] : List Byte).length = 1 ∧
    0 < (List.replicate 3584 (0x12 : Byte)).length ∧ (List.replicate 3584 (0x12 : Byte)).length ≤ 3584 ∧
    3584 < (List.replicate 3585 (0x12 : Byte)).length ∧
    base.run ≠ .awaitingLoad ∧
    ({ State.reset with load := some .empty } : State).load ≠ none := by
  refine ⟨rfl, rfl, rfl, rfl, ?_, ?_, ?_, by decide, by decide⟩ <;> rw [List.length_replicate] <;> omega

theorem witness_ResetEventRestoresBlock :
    ({ base with run := .faulted, hostIn := [.reset] } : State).hostIn = .reset :: [] := rfl

theorem witness_HaltedBlockTakesNoStep :
    State.reset.hostIn = [] ∧ State.reset.run = .awaitingLoad ∧
    ({ base with run := .stopped, hostIn := [.iteration 1 true] } : State).hostIn = .iteration 1 true :: [] ∧
    ({ base with run := .stopped } : State).run = .stopped ∧
    ({ base with run := .faulted } : State).hostIn = [] ∧ ({ base with run := .faulted } : State).run = .faulted :=
  ⟨rfl, rfl, rfl, rfl, rfl, rfl⟩

theorem witness_StepKeepsParameters : answers (step base) (fun t => t.run == .faulted) :=
  answers_of_onNext (by decide)

theorem witness_DecodeOfEncodeIsIdentity :
    (Instr.drw 15 0 15).wellFormed = true ∧ (Instr.jp 0xFFF).wellFormed = true ∧
    (Instr.ldLoad 15).wellFormed = true := by decide

theorem witness_EncodeOfDecodeIsIdentity :
    decodeWord 0xDF0F#16 = some (.drw 15 0 15) ∧ decodeWord 0x8FFE#16 = some (.shlReg 15 15) := by decide

/-- `DecodeFollowsOpcodeMap`: a word of a row, and one of no row. -/
theorem witness_DecodeFollowsOpcodeMap :
    0xFF65#16 &&& 0xF0FF#16 = 0xF065#16 ∧ (∀ row ∈ opcodeTable, 0xFF66#16 &&& row.mask ≠ row.pattern) := by decide

/-- `StepRunsDecodedInstruction` at 0x200, at 0xFFE and, under `WRAP`, at 0xFFF. -/
theorem witness_StepRunsDecodedInstruction :
    (let s : State := { base with mem := [(0x200, 0x12), (0x201, 0x34)] }
     effAddr s.cfg.rangePolicy s.pc.toNat = .ok 0x200 ∧ effAddr s.cfg.rangePolicy (s.pc.toNat + 1) = .ok 0x201 ∧
     decodeWord (readByte s 0x200 ++ readByte s 0x201) = some (.jp 0x234)) ∧
    (let s : State := { base with pc := 0xFFE, mem := [(0xFFF, 0xE0)] }
     effAddr s.cfg.rangePolicy s.pc.toNat = .ok 0xFFE ∧ effAddr s.cfg.rangePolicy (s.pc.toNat + 1) = .ok 0xFFF ∧
     decodeWord (readByte s 0xFFE ++ readByte s 0xFFF) = some .cls) ∧
    (let s : State := { baseWrap with pc := 0xFFF, mem := [(0x000, 0x34), (0xFFF, 0x12)] }
     effAddr s.cfg.rangePolicy s.pc.toNat = .ok 0xFFF ∧ effAddr s.cfg.rangePolicy (s.pc.toNat + 1) = .ok 0x000 ∧
     decodeWord (readByte s 0xFFF ++ readByte s 0x000) = some (.jp 0x234)) :=
  ⟨⟨rfl, rfl, rfl⟩, ⟨rfl, rfl, rfl⟩, ⟨rfl, rfl, rfl⟩⟩

theorem witness_UnimplementedWordFaults :
    base.run = .running ∧ base.hostIn = [] ∧ fetch16 base = .ok 0x0000 ∧ decodeWord 0x0000 = none :=
  ⟨rfl, rfl, rfl, by decide⟩

theorem witness_FetchOutOfRangeFaults :
    base.cfg.rangePolicy = .fault ∧ 0x0FFF ≤ ({ base with pc := 0xFFF } : State).pc.toNat ∧
    0x0FFF ≤ ({ base with pc := 0xFFFF } : State).pc.toNat := by decide

theorem witness_StoreIsSeenByNextFetch :
    (let s : State := { setV 0 0x12 base with i := 0x200 }
     s.i = s.pc ∧ effAddr s.cfg.rangePolicy s.pc.toNat = .ok 0x200 ∧
     effAddr s.cfg.rangePolicy (s.pc.toNat + 1) = .ok 0x201 ∧
     answers (exec (.ldStore 1) s) (fun t => readByte t 0x200 == 0x12)) ∧
    (let s : State := { setV 0 0x12 baseWrap with i := 0xFFF, pc := 0xFFF }
     s.i = s.pc ∧ effAddr s.cfg.rangePolicy s.pc.toNat = .ok 0xFFF ∧
     effAddr s.cfg.rangePolicy (s.pc.toNat + 1) = .ok 0 ∧
     answers (exec (.ldStore 1) s) (fun t => readByte t 0xFFF == 0x12)) :=
  ⟨⟨rfl, rfl, rfl, answers_of_onNext (by decide)⟩, ⟨rfl, rfl, rfl, answers_of_onNext (by decide)⟩⟩

theorem witness_WithFetchWordIsRunNext :
    decodeWord (BitVec.ofNat 16 0xFF65) = some (.ldLoad 15) ∧ 0xFF65 < 65536 ∧
    base.pc.toNat + 1 < 0x1000 ∧ ({ base with pc := 0xFFE } : State).pc.toNat + 1 < 0x1000 := by decide

theorem witness_CallPushesReturnAddress : base.sp.val < 16 ∧ ({ base with sp := 15 } : State).sp.val < 16 := by decide

theorem witness_ReturnPopsTopEntry :
    0 < ({ base with sp := 1 } : State).sp.val ∧ 0 < ({ base with sp := 16 } : State).sp.val := by decide

theorem witness_StackGuardsFault : ({ base with sp := 16 } : State).sp.val = 16 ∧ base.sp.val = 0 := by decide

theorem witness_CallThenReturnRestoresPc :
    ({ base with sp := 15 } : State).sp.val < 16 ∧
    ∃ t, exec (.call 0x300) { base with sp := 15 } = .next t ∧ sameStack t t :=
  ⟨by decide, _, rfl, rfl, rfl⟩

theorem witness_SixteenNestedCallsFit :
    (List.replicate 16 (0x300 : Nnn)).length = 16 ∧ base.sp.val = 0 := by decide

theorem witness_ShiftsByOneWithFlag : base.cfg.shlVariant = .left := rfl

theorem witness_SourceRightShlShiftsRight : baseRight.cfg.shlVariant = .sourceRight := rfl

/-- `FlagRegisterDiscipline`: a flag writer, one without VF among its operands, and an instruction that
neither writes the flag nor names VF. -/
theorem witness_FlagRegisterDiscipline :
    (writesFlag (.subReg 15 1) ∧ base.run = .running ∧
      answers (exec (.subReg 15 1) base) (fun t => t.run == .running)) ∧
    ((0 : Reg) ≠ 15 ∧ (Instr.drw 0 0 15) ∈ [Instr.shlReg 0 0, .drw 0 0 15] ∧
      answers (exec (.drw 0 0 15) base) (fun t => t.run == .running)) ∧
    (¬ writesFlag (.ldLoad 14) ∧ 15 ∉ destRegs (.ldLoad 14) ∧
      answers (exec (.ldLoad 14) base) (fun t => t.run == .running)) :=
  ⟨⟨⟨15, 1, 0, by simp⟩, rfl, answers_of_onNext (by decide)⟩,
    ⟨by decide, by decide, answers_of_onNext (by decide)⟩,
    ⟨by simp [writesFlag], by decide, answers_of_onNext (by decide)⟩⟩

theorem witness_BcdStoresDigits :
    ({ base with i := 0xFFD } : State).i.toNat + 3 ≤ 4096 ∧ baseWrap.cfg.rangePolicy = .wrap := by decide

theorem witness_StoreRegistersToMemory :
    ({ base with i := 0xFF0 } : State).i.toNat + (15 : Reg).val + 1 ≤ 4096 ∧ baseWrap.cfg.rangePolicy = .wrap := by
  decide

theorem witness_LoadRegistersFromMemory :
    ({ base with i := 0xFFF } : State).i.toNat + (0 : Reg).val + 1 ≤ 4096 ∧ baseWrap.cfg.rangePolicy = .wrap := by
  decide

/-- `DataAddressOutOfRangeFaults`: the least I for which each form faults. -/
theorem witness_DataAddressOutOfRangeFaults :
    base.cfg.rangePolicy = .fault ∧
    4096 < ({ base with i := 0xFFE } : State).i.toNat + 3 ∧
    4096 < ({ base with i := 0xFF1 } : State).i.toNat + (15 : Reg).val + 1 ∧
    4096 < ({ base with i := 0x1000 } : State).i.toNat + (0 : Reg).val + 1 ∧
    0 < min 15 (32 - (getV base 0).toNat % 32) ∧
    4096 < ({ base with i := 0xFF2 } : State).i.toNat + min 15 (32 - (getV base 0).toNat % 32) := by decide

/-- `WrapRaisesNoRangeFault`: a fault that a step under `WRAP` does take. -/
theorem witness_WrapRaisesNoRangeFault :
    baseWrap.cfg.rangePolicy = .wrap ∧ baseWrap.fault = none ∧
    ∃ t, step baseWrap = .next t ∧ t.fault = some ⟨.unimplementedOpcode 0, 0x200⟩ :=
  ⟨rfl, rfl, _, rfl, rfl⟩

/-- `DrawFlipsSpritePixels`: the last row in memory, no row, and `WRAP`. -/
theorem witness_DrawFlipsSpritePixels :
    ({ base with i := 0xFF1 } : State).i.toNat + min 15 (32 - (getV base 0).toNat % 32) ≤ 4096 ∧
    ({ base with i := 0xFFFF } : State).cfg.rangePolicy = .fault ∧ (0 : Nat) = 0 ∧
    baseWrap.cfg.rangePolicy = .wrap := by decide

theorem witness_DrawTwiceRestoresScreen :
    (0 : Reg) ≠ 15 ∧ base.run = .running ∧
    ∃ t u, exec (.drw 0 0 1) { base with i := 0x050 } = .next t ∧ t.run = .running ∧
      exec (.drw 0 0 1) t = .next u :=
  ⟨by decide, rfl, _, _, rfl, rfl, rfl⟩

theorem witness_RandomByteIsMasked :
    ({ base with entropyIn := [0xA7, 0x11] } : State).entropyIn = 0xA7 :: [0x11] ∧ base.entropyIn = [] := ⟨rfl, rfl⟩

/-- `KeySkipsFollowTheLevel`: the key value 15, and 255 under `WRAP`; queued levels and none. -/
theorem witness_KeySkipsFollowTheLevel :
    (getV (setV 2 15 base) 2).toNat ≤ 15 ∧ baseWrap.cfg.rangePolicy = .wrap ∧
    (getV (setV 2 255 baseWrap) 2).toNat = 255 ∧
    ({ base with keysIn := [0x8000] } : State).keysIn = 0x8000 :: [] ∧ base.keysIn = [] := by decide

theorem witness_KeyValueOutOfRangeFaults :
    base.cfg.rangePolicy = .fault ∧ 15 < (getV (setV 2 16 base) 2).toNat := by decide

/-- `OnlyTheListedWriters` and `FaultsArePrecise`. -/
theorem witness_OnlyTheListedWriters :
    ∃ t, exec (.ldStore 15) { base with i := 0x300 } = .next t ∧
      ¬ writesIndex (.ldStore 15) ∧ ¬ transfersControl (.ldStore 15) ∧ ¬ touchesStack (.ldStore 15) ∧
      ¬ writesFramebuffer (.ldStore 15) ∧ ¬ writesMemory .cls :=
  ⟨_, rfl, by simp [writesIndex], by simp [transfersControl], by simp [touchesStack], by simp [writesFramebuffer],
    by simp [writesMemory]⟩

theorem witness_FaultsArePrecise :
    base.run = .running ∧ ∃ t, exec .ret base = .next t ∧ t.run = .faulted := ⟨rfl, _, rfl, rfl⟩

theorem witness_QuitStopsTheBlock :
    ({ base with hostIn := [.iteration 1 true, .reset] } : State).hostIn = .iteration 1 true :: [.reset] := rfl

/-- `IdleIterationAddsTime`: no time at all, and just short of a step interval. -/
theorem witness_IdleIterationAddsTime :
    base.sinceLastStep + 0 < 1 / base.cfg.ips ∧ base.sinceLastFrame + 0 < 1 / base.cfg.frameRate ∧
    base.sinceLastStep + 1 / 121 < 1 / base.cfg.ips ∧ base.sinceLastFrame + 1 / 121 < 1 / base.cfg.frameRate := by
  norm_num [base, State.resetWith, cfg120, Config.default]

/-- `FrameTickPresentsAndCountsDown`: with `IPS` = 30, exactly one frame interval. -/
theorem witness_FrameTickPresentsAndCountsDown :
    (let s : State := { base with cfg := { cfg120 with ips := 30 }, dt := 2 }
     s.sinceLastStep + 1 / 60 < 1 / s.cfg.ips ∧ 1 / s.cfg.frameRate ≤ s.sinceLastFrame + 1 / 60) := by
  norm_num [base, State.resetWith, cfg120, Config.default]

/-- `IterationRunsOneCpuStep`: a step that faults, one before the tick is due and one with a tick. -/
theorem witness_IterationRunsOneCpuStep :
    (1 / base.cfg.ips ≤ base.sinceLastStep + 1 / 120 ∧ base.sinceLastFrame + 1 / 120 < 1 / base.cfg.frameRate ∧
      1 / base.cfg.frameRate ≤ base.sinceLastFrame + 1 / 60) ∧
    (∃ u, cpuStep (accumulate (1 / 120) base) = .next u ∧ u.run = .faulted) ∧
    (∃ u, cpuStep (accumulate (1 / 120) { base with mem := [(0x200, 0x12)] }) = .next u ∧ u.run = .running) := by
  refine ⟨?_, ⟨_, rfl, rfl⟩, ⟨_, rfl, rfl⟩⟩
  norm_num [base, State.resetWith, cfg120, Config.default]

/-- `ProgramCannotSeeTime`: a running state with an iteration pending, and two states of one view. -/
theorem witness_ProgramCannotSeeTime :
    (let s : State := { base with hostIn := [.iteration (1 / 60) false] }
     s.run = .running ∧ s.hostIn = .iteration (1 / 60) false :: []) ∧
    programView { base with dt := 7, sinceLastStep := 3 } = programView base ∧
    ({ base with dt := 7, sinceLastStep := 3 } : State).dt ≠ base.dt :=
  ⟨⟨rfl, rfl⟩, rfl, by decide⟩

end Sys2Proof.Tests
end

section
/-! SUPPORT. The decoder against the opcode map of R104: a mask is the fields it selects, a row's words
decode by the row, a decoded word lies in the row of its instruction, and no two rows share a word. -/

namespace Sys2Proof

open Sys2Proof.Machine Sys2Proof.Laws

/-! ### The masks, in terms of the fields -/

/-- The mask 0xF000 keeps `op`. -/
theorem and_opMask {w : Word} {op : Nat} (hop : (opField w).toNat = op) :
    w &&& 0xF000#16 = encNnn (BitVec.ofNat 4 op) 0 := by
  subst hop
  rw [BitVec.ofNat_toNat, BitVec.setWidth_eq, ← encNnn_mask (opField w) (nnnField w), word_eq_encNnn]

/-- The mask 0xF00F keeps `op` and `n`. -/
theorem and_opNMask {w : Word} {op n : Nat} (hop : (opField w).toNat = op) (hn : (nField w).toNat = n) :
    w &&& 0xF00F#16 = encXyn (BitVec.ofNat 4 op) 0 0 (BitVec.ofNat 4 n) := by
  subst hop hn
  rw [BitVec.ofNat_toNat, BitVec.setWidth_eq, BitVec.ofNat_toNat, BitVec.setWidth_eq,
    ← encXyn_mask_n (opField w) (xField w) (yField w) (nField w), word_eq_encXyn]

/-- The mask 0xF0FF keeps `op` and `nn`. -/
theorem and_opNnMask {w : Word} {op : Nat} {nn : Byte} (hop : (opField w).toNat = op)
    (hnn : nnField w = nn) : w &&& 0xF0FF#16 = encXnn (BitVec.ofNat 4 op) 0 nn := by
  subst hop hnn
  rw [BitVec.ofNat_toNat, BitVec.setWidth_eq,
    ← encXnn_mask_nn (opField w) (xField w) (nnField w), word_eq_encXnn]

/-! ### The words of a row decode by the row -/

/-- A row that fixes the whole word. -/
theorem rowDecodesTo_word {p : Word} {f : Word → Instr} (h : decodeWord p = some (f p)) :
    rowDecodesTo p 0xFFFF f := by
  intro w hw
  obtain rfl : w = p := (BitVec.and_allOnes (x := w)).symm.trans hw
  exact h

/-- A row that fixes `op`. -/
theorem rowDecodesTo_op {p : Word} {f : Word → Instr}
    (h : ∀ w, opField w = opField p → decodeWord w = some (f w)) : rowDecodesTo p 0xF000 f :=
  fun w hw => h w (opField_of_mask hw rfl)

/-- A row that fixes `op` and `n`. -/
theorem rowDecodesTo_opN {p : Word} {f : Word → Instr}
    (h : ∀ w, opField w = opField p → nField w = nField p → decodeWord w = some (f w)) :
    rowDecodesTo p 0xF00F f :=
  fun w hw => h w (opField_of_mask hw rfl) (nField_of_mask hw rfl)

/-- A row that fixes `op` and `nn`. -/
theorem rowDecodesTo_opNn {p : Word} {f : Word → Instr}
    (h : ∀ w, opField w = opField p → nnField w = nnField p → decodeWord w = some (f w)) :
    rowDecodesTo p 0xF0FF f :=
  fun w hw => h w (opField_of_mask hw rfl) (nnField_of_mask hw rfl)

theorem rowDecodesTo_of_mem_low : ∀ row ∈ opcodeTableLow, rowDecodesTo row.pattern row.mask row.build := by
  simp only [opcodeTableLow, List.forall_mem_cons]
  refine ⟨rowDecodesTo_word rfl, rowDecodesTo_word rfl, rowDecodesTo_op ?jp, rowDecodesTo_op ?call,
    rowDecodesTo_op ?seImm, rowDecodesTo_op ?sneImm, rowDecodesTo_opN ?seReg, rowDecodesTo_op ?ldImm,
    rowDecodesTo_op ?addImm, List.forall_mem_nil _⟩
  case seReg => intro w hop hn; rw [decodeWord, hop, hn]; rfl
  all_goals intro w hop; rw [decodeWord, hop]; rfl

theorem rowDecodesTo_of_mem_alu : ∀ row ∈ opcodeTableAlu, rowDecodesTo row.pattern row.mask row.build := by
  simp only [opcodeTableAlu, List.forall_mem_cons]
  refine ⟨rowDecodesTo_opN ?_, rowDecodesTo_opN ?_, rowDecodesTo_opN ?_, rowDecodesTo_opN ?_,
    rowDecodesTo_opN ?_, rowDecodesTo_opN ?_, rowDecodesTo_opN ?_, rowDecodesTo_opN ?_,
    rowDecodesTo_opN ?_, rowDecodesTo_opN ?sneReg, List.forall_mem_nil _⟩
  case sneReg => intro w hop hn; rw [decodeWord, hop, hn]; rfl
  all_goals intro w hop hn; rw [decodeWord, hop, decodeAlu, hn]; rfl

theorem rowDecodesTo_of_mem_high : ∀ row ∈ opcodeTableHigh, rowDecodesTo row.pattern row.mask row.build := by
  simp only [opcodeTableHigh, List.forall_mem_cons]
  refine ⟨rowDecodesTo_op ?ldI, rowDecodesTo_op ?jpV0, rowDecodesTo_op ?rnd, rowDecodesTo_op ?drw,
    rowDecodesTo_opNn ?skp, rowDecodesTo_opNn ?sknp, rowDecodesTo_opNn ?_, rowDecodesTo_opNn ?_,
    rowDecodesTo_opNn ?_, rowDecodesTo_opNn ?_, rowDecodesTo_opNn ?_, List.forall_mem_nil _⟩
  case ldI | jpV0 | rnd | drw => intro w hop; rw [decodeWord, hop]; rfl
  case skp | sknp => intro w hop hnn; rw [decodeWord, hop, decodeKey, hnn]; rfl
  all_goals intro w hop hnn; rw [decodeWord, hop, decodeIndex, hnn]; rfl

theorem rowDecodesTo_of_mem_opcodeTable {row : OpcodeRow} (hrow : row ∈ opcodeTable) :
    rowDecodesTo row.pattern row.mask row.build := by
  obtain hlow | halu | hhigh : row ∈ opcodeTableLow ∨ row ∈ opcodeTableAlu ∨ row ∈ opcodeTableHigh := by
    simpa [opcodeTable] using hrow
  · exact rowDecodesTo_of_mem_low row hlow
  · exact rowDecodesTo_of_mem_alu row halu
  · exact rowDecodesTo_of_mem_high row hhigh

/-! ### A decoded word lies in the row of its instruction -/

theorem inRow_of_decodeSystem {w : Word} {i : Instr} (h : decodeSystem w = some i) :
    w &&& rowMask i = rowPattern i := by
  unfold decodeSystem at h
  split at h
  · cases h; subst w; rfl
  · split at h
    · cases h; subst w; rfl
    · cases h

theorem inRow_of_decodeAlu {w : Word} {i : Instr} (hop : (opField w).toNat = 0x8)
    (h : decodeAlu w = some i) : w &&& rowMask i = rowPattern i := by
  unfold decodeAlu at h
  split at h <;> cases h <;> exact and_opNMask hop ‹_›

theorem inRow_of_decodeKey {w : Word} {i : Instr} (hop : (opField w).toNat = 0xE)
    (h : decodeKey w = some i) : w &&& rowMask i = rowPattern i := by
  unfold decodeKey at h
  repeat' split at h
  all_goals cases h
  all_goals exact and_opNnMask hop ‹_›

theorem inRow_of_decodeIndex {w : Word} {i : Instr} (hop : (opField w).toNat = 0xF)
    (h : decodeIndex w = some i) : w &&& rowMask i = rowPattern i := by
  unfold decodeIndex at h
  repeat' split at h
  all_goals cases h
  all_goals exact and_opNnMask hop ‹_›

theorem inRow_of_decodeWord {w : Word} {i : Instr} (h : decodeWord w = some i) :
    w &&& rowMask i = rowPattern i := by
  unfold decodeWord at h
  -- One case per value of `op`, in the decoder's order.
  split at h
  case h_1 => exact inRow_of_decodeSystem h
  case h_6 hop | h_10 hop =>
    split at h <;> cases h
    exact and_opNMask hop (congrArg BitVec.toNat ‹nField w = 0#4›)
  case h_9 hop => exact inRow_of_decodeAlu hop h
  case h_15 hop => exact inRow_of_decodeKey hop h
  case h_16 hop => exact inRow_of_decodeIndex hop h
  case h_17 => cases h
  all_goals cases h; exact and_opMask ‹_›

/-- The mask and pattern of every instruction are those of a row of the map. -/
theorem exists_mem_opcodeTable_of_instr (i : Instr) :
    ∃ row ∈ opcodeTable, row.mask = rowMask i ∧ row.pattern = rowPattern i := by
  cases i <;> simp only [rowMask, rowPattern] <;> decide

theorem decodeWord_eq_none_of_no_row {w : Word}
    (h : ∀ row ∈ opcodeTable, w &&& row.mask ≠ row.pattern) : decodeWord w = none := by
  refine Option.eq_none_iff_forall_ne_some.2 fun i hi => ?_
  obtain ⟨row, hrow, hmask, hpattern⟩ := exists_mem_opcodeTable_of_instr i
  refine h row hrow ?_
  rw [hmask, hpattern]
  exact inRow_of_decodeWord hi

/-! ### No two rows share a word -/

/-- Two rows whose patterns differ under the other's mask share no word: under both masks a common
word would be both. -/
theorem not_both_rows {p m p' m' : Word} (h : p &&& m' ≠ p' &&& m) (w : Word) :
    ¬ (w &&& m = p ∧ w &&& m' = p') := by
  rintro ⟨rfl, rfl⟩
  exact h (by rw [BitVec.and_assoc, BitVec.and_comm m m', BitVec.and_assoc])

theorem opcodeTable_patterns_differ :
    opcodeTable.Pairwise (fun r r' => r.pattern &&& r'.mask ≠ r'.pattern &&& r.mask) := by
  decide

/-- Settles O10: rows decode by the fields their mask fixes, and a word that decodes lies in the row of
its instruction. -/
theorem decodeFollowsOpcodeMap : Obligations.DecodeFollowsOpcodeMap := by
  unfold Obligations.DecodeFollowsOpcodeMap
  exact ⟨fun _ => rowDecodesTo_of_mem_opcodeTable, fun _ => decodeWord_eq_none_of_no_row,
    opcodeTable_patterns_differ.imp not_both_rows, fun _ _ _ _ => ⟨rfl, rfl⟩⟩

end Sys2Proof
end

section
/-! SUPPORT. Jumps and compare-and-skip: writing pc and `skip()` change nothing but pc, and the pc after
a skip on a comparison of two bytes (R141, R143 to R146). -/

namespace Sys2Proof

open Sys2Proof.Machine

/-! ### Only pc changes -/

theorem onlyPcChanges_refl (s : State) : onlyPcChanges s s :=
  ⟨fun _ _ => rfl, rfl, ⟨rfl, rfl⟩, fun _ => rfl, ⟨rfl, rfl⟩, ⟨rfl, rfl, rfl⟩,
    ⟨rfl, rfl, rfl, rfl, rfl, rfl, rfl, rfl, rfl⟩⟩

/-- No conjunct of the frame reads pc, so the frame of the unchanged state serves. -/
theorem onlyPcChanges_setPc (a : Word) (s : State) : onlyPcChanges s (setPc a s) :=
  onlyPcChanges_refl s

theorem onlyPcChanges_skipIf (c : Bool) (s : State) : onlyPcChanges s (skipIf c s) := by
  cases c with
  | false => exact onlyPcChanges_refl s
  | true => exact onlyPcChanges_setPc (s.pc + 2) s

/-! ### The pc after a skip on a comparison -/

theorem skipIf_beq_pc (a b : Byte) (s : State) :
    (skipIf (a == b) s).pc = if a = b then s.pc + 2 else s.pc := by
  simp only [skipIf_pc, beq_iff_eq]

theorem skipIf_bne_pc (a b : Byte) (s : State) :
    (skipIf (a != b) s).pc = if a = b then s.pc else s.pc + 2 := by
  simp only [skipIf_pc, bne_iff_ne, ne_eq, ite_not]

/-! ### The obligations -/

/-- Settles O17: JP is a write of pc, and its row is one of the opcode map's. -/
theorem jumpSetsPc : Obligations.JumpSetsPc := by
  unfold Obligations.JumpSetsPc
  have jpRow : ⟨0x1000, 0xF000, fun w => .jp (nnnField w)⟩ ∈ opcodeTableLow := by simp [opcodeTableLow]
  exact ⟨rowDecodesTo_of_mem_low _ jpRow, fun nnn s => ⟨_, rfl, rfl, onlyPcChanges_setPc _ s⟩⟩

/-- Settles O23: the four meanings are a skip on `==` or `!=` of two bytes, and their rows are the opcode
map's. -/
theorem skipsCompareAndSkip : Obligations.SkipsCompareAndSkip := by
  unfold Obligations.SkipsCompareAndSkip
  have seImmRow : ⟨0x3000, 0xF000, fun w => .seImm (xField w) (nnField w)⟩ ∈ opcodeTableLow := by
    simp [opcodeTableLow]
  have sneImmRow : ⟨0x4000, 0xF000, fun w => .sneImm (xField w) (nnField w)⟩ ∈ opcodeTableLow := by
    simp [opcodeTableLow]
  have seRegRow : ⟨0x5000, 0xF00F, fun w => .seReg (xField w) (yField w)⟩ ∈ opcodeTableLow := by
    simp [opcodeTableLow]
  have sneRegRow : ⟨0x9000, 0xF00F, fun w => .sneReg (xField w) (yField w)⟩ ∈ opcodeTableAlu := by
    simp [opcodeTableAlu]
  refine ⟨⟨rowDecodesTo_of_mem_low _ seImmRow, rowDecodesTo_of_mem_low _ sneImmRow,
    rowDecodesTo_of_mem_low _ seRegRow, rowDecodesTo_of_mem_alu _ sneRegRow⟩, ?seImm, ?sneImm, ?seReg, ?sneReg⟩
  case seImm => exact fun x nn s => ⟨_, rfl, skipIf_beq_pc (getV s x) nn s, onlyPcChanges_skipIf _ s⟩
  case sneImm => exact fun x nn s => ⟨_, rfl, skipIf_bne_pc (getV s x) nn s, onlyPcChanges_skipIf _ s⟩
  case seReg => exact fun x y s => ⟨_, rfl, skipIf_beq_pc (getV s x) (getV s y) s, onlyPcChanges_skipIf _ s⟩
  case sneReg => exact fun x y s => ⟨_, rfl, skipIf_bne_pc (getV s x) (getV s y) s, onlyPcChanges_skipIf _ s⟩

end Sys2Proof
end

section
/-! SUPPORT. Register loads and the ALU without a flag (R182 to R187): a register write changes nothing but
that register. -/

namespace Sys2Proof

open Sys2Proof.Machine

/-! ### Only the written register changes -/

/-- A new register file is a change of registers alone: which ones is all there is to show. -/
theorem onlyRegsChange_of_v {rs : List Reg} {s : State} {v : Vector Byte 16}
    (h : sameRegsExcept rs s { s with v := v }) : onlyRegsChange rs s { s with v := v } :=
  ⟨h, rfl, rfl, ⟨rfl, rfl⟩, fun _ => rfl, ⟨rfl, rfl⟩, ⟨rfl, rfl, rfl⟩,
    ⟨rfl, rfl, rfl, rfl, rfl, rfl, rfl, rfl, rfl⟩⟩

theorem sameRegsExcept_setV (x : Reg) (b : Byte) (s : State) : sameRegsExcept [x] s (setV x b s) :=
  fun _ hr => getV_setV_other (mt List.mem_singleton.2 hr) b s

theorem onlyRegsChange_setV (x : Reg) (b : Byte) (s : State) : onlyRegsChange [x] s (setV x b s) :=
  onlyRegsChange_of_v (sameRegsExcept_setV x b s)

/-! ### The obligations -/

/-- Settles O25: the three meanings are one write of Vx, and their rows are the opcode map's. -/
theorem registerLoadsAndAddImmediate : Obligations.RegisterLoadsAndAddImmediate := by
  unfold Obligations.RegisterLoadsAndAddImmediate
  have ldImmRow : ⟨0x6000, 0xF000, fun w => .ldImm (xField w) (nnField w)⟩ ∈ opcodeTableLow := by
    simp [opcodeTableLow]
  have addImmRow : ⟨0x7000, 0xF000, fun w => .addImm (xField w) (nnField w)⟩ ∈ opcodeTableLow := by
    simp [opcodeTableLow]
  have ldRegRow : ⟨0x8000, 0xF00F, fun w => .ldReg (xField w) (yField w)⟩ ∈ opcodeTableAlu := by
    simp [opcodeTableAlu]
  refine ⟨⟨rowDecodesTo_of_mem_low _ ldImmRow, rowDecodesTo_of_mem_low _ addImmRow,
    rowDecodesTo_of_mem_alu _ ldRegRow⟩, ?ldImm, ?addImm, ?ldReg⟩
  case ldImm => exact fun x nn s => ⟨_, rfl, getV_setV_same x nn s, onlyRegsChange_setV x _ s⟩
  case addImm =>
    exact fun x nn s => ⟨_, rfl, by rw [getV_setV_same, BitVec.toNat_ofNat], onlyRegsChange_setV x _ s⟩
  case ldReg => exact fun x y s => ⟨_, rfl, getV_setV_same x (getV s y) s, onlyRegsChange_setV x _ s⟩

/-- Settles O26: the three meanings write Vx with a bitwise operation on the old Vx and Vy, and their rows
are the opcode map's. -/
theorem logicIsBitwiseWithoutFlag : Obligations.LogicIsBitwiseWithoutFlag := by
  unfold Obligations.LogicIsBitwiseWithoutFlag
  have orRow : ⟨0x8001, 0xF00F, fun w => .orReg (xField w) (yField w)⟩ ∈ opcodeTableAlu := by
    simp [opcodeTableAlu]
  have andRow : ⟨0x8002, 0xF00F, fun w => .andReg (xField w) (yField w)⟩ ∈ opcodeTableAlu := by
    simp [opcodeTableAlu]
  have xorRow : ⟨0x8003, 0xF00F, fun w => .xorReg (xField w) (yField w)⟩ ∈ opcodeTableAlu := by
    simp [opcodeTableAlu]
  refine ⟨⟨rowDecodesTo_of_mem_alu _ orRow, rowDecodesTo_of_mem_alu _ andRow,
    rowDecodesTo_of_mem_alu _ xorRow⟩, ?orReg, ?andReg, ?xorReg⟩
  case orReg =>
    exact fun x y s => ⟨_, rfl, fun k => by rw [getV_setV_same, BitVec.getLsbD_or], onlyRegsChange_setV x _ s⟩
  case andReg =>
    exact fun x y s => ⟨_, rfl, fun k => by rw [getV_setV_same, BitVec.getLsbD_and], onlyRegsChange_setV x _ s⟩
  case xorReg =>
    exact fun x y s => ⟨_, rfl, fun k => by rw [getV_setV_same, BitVec.getLsbD_xor], onlyRegsChange_setV x _ s⟩

end Sys2Proof
end

section
/-! SUPPORT. Loading I (R230): a write of I changes nothing but I. -/

namespace Sys2Proof

open Sys2Proof.Machine

/-! ### Only I changes -/

/-- No conjunct of the frame reads I, so each compares a component with itself. -/
theorem onlyIndexChanges_setI (a : Word) (s : State) : onlyIndexChanges s (setI a s) :=
  ⟨fun _ _ => rfl, rfl, ⟨rfl, rfl⟩, fun _ => rfl, ⟨rfl, rfl⟩, ⟨rfl, rfl, rfl⟩,
    ⟨rfl, rfl, rfl, rfl, rfl, rfl, rfl, rfl, rfl⟩⟩

/-! ### The obligation -/

/-- Settles O31: LD I is a write of I, and its row is one of the opcode map's. -/
theorem loadIndexImmediate : Obligations.LoadIndexImmediate := by
  unfold Obligations.LoadIndexImmediate
  have ldIRow : ⟨0xA000, 0xF000, fun w => .ldI (nnnField w)⟩ ∈ opcodeTableHigh := by simp [opcodeTableHigh]
  exact ⟨rowDecodesTo_of_mem_high _ ldIRow,
    fun nnn s => ⟨_, rfl, setI_i s (nnn.zeroExtend 16), onlyIndexChanges_setI _ s⟩⟩

end Sys2Proof
end

section
/-! SUPPORT. Decoding and encoding are inverse (R101, R104): an encoded word gives its fields back, and a
word is put together again from its fields. -/

namespace Sys2Proof

open Sys2Proof.Machine

/-! ### Decoding what was encoded -/

/-- By the shape of the word: the fields of an encoded word are the operands and the selectors of its row. -/
theorem decodeWord_encode {i : Instr} (hwf : i.wellFormed = true) : decodeWord (encode i) = some i := by
  cases i
  case cls | ret => rfl
  case jp nnn | call nnn | ldI nnn | jpV0 nnn => simp [encode, decodeWord]
  case seImm x nn | sneImm x nn | ldImm x nn | addImm x nn | rnd x nn => simp [encode, decodeWord]
  case seReg x y | sneReg x y => simp [encode, decodeWord]
  case ldReg x y | orReg x y | andReg x y | xorReg x y | addReg x y | subReg x y | shrReg x y | subnReg x y
      | shlReg x y =>
    simp [encode, decodeWord, decodeAlu]
  case drw x y n =>
    have hn : n % 16 = n := Nat.mod_eq_of_lt (by simpa [Instr.wellFormed] using hwf)
    simp [encode, decodeWord, hn]
  case skp x | sknp x => simp [encode, decodeWord, decodeKey]
  case addI x | ldF x | ldB x | ldStore x | ldLoad x => simp [encode, decodeWord, decodeIndex]

theorem decode_encodeBytes_append {i : Instr} (hwf : i.wellFormed = true) (rest : List Byte) :
    decode (encodeBytes i ++ rest) = .ok (i, rest) := by
  simp [encodeBytes, decode, decodeWord_encode hwf]

/-- Settles O8: the decoder reads back the fields the encoder put in, and a word is its two bytes. -/
theorem decodeOfEncodeIsIdentity : Obligations.DecodeOfEncodeIsIdentity := by
  unfold Obligations.DecodeOfEncodeIsIdentity
  exact fun i hwf => ⟨decodeWord_encode hwf, decode_encodeBytes_append hwf⟩

/-! ### Encoding what was decoded -/

/-- A word whose op is known, from its fields op and nnn. -/
theorem encNnn_of_op {w : Word} {op : Nat} (hop : (opField w).toNat = op) :
    encNnn (BitVec.ofNat 4 op) (nnnField w) = w := by
  subst hop
  rw [BitVec.ofNat_toNat, BitVec.setWidth_eq, word_eq_encNnn]

/-- A word whose op is known, from its fields op, x and nn. -/
theorem encXnn_of_op {w : Word} {op : Nat} (hop : (opField w).toNat = op) :
    encXnn (BitVec.ofNat 4 op) (xField w) (nnField w) = w := by
  subst hop
  rw [BitVec.ofNat_toNat, BitVec.setWidth_eq, word_eq_encXnn]

/-- A word whose op and nn are known, from its fields. -/
theorem encXnn_of_op_nn {w : Word} {op : Nat} {nn : Byte} (hop : (opField w).toNat = op)
    (hnn : nnField w = nn) : encXnn (BitVec.ofNat 4 op) (xField w) nn = w := by
  subst hnn
  exact encXnn_of_op hop

/-- A word whose op and n are known, from its fields. -/
theorem encXyn_of_op_n {w : Word} {op n : Nat} (hop : (opField w).toNat = op)
    (hn : (nField w).toNat = n) :
    encXyn (BitVec.ofNat 4 op) (xField w) (yField w) (BitVec.ofNat 4 n) = w := by
  subst hop hn
  rw [BitVec.ofNat_toNat, BitVec.setWidth_eq, BitVec.ofNat_toNat, BitVec.setWidth_eq, word_eq_encXyn]

theorem encode_of_decodeSystem {w : Word} {i : Instr} (h : decodeSystem w = some i) :
    encode i = w ∧ i.wellFormed = true := by
  unfold decodeSystem at h
  split at h
  · cases h; exact ⟨‹w = _›.symm, rfl⟩
  · split at h <;> cases h
    exact ⟨‹w = _›.symm, rfl⟩

theorem encode_of_decodeAlu {w : Word} {i : Instr} (hop : (opField w).toNat = 0x8)
    (h : decodeAlu w = some i) : encode i = w ∧ i.wellFormed = true := by
  unfold decodeAlu at h
  split at h <;> cases h <;> exact ⟨encXyn_of_op_n hop ‹_›, rfl⟩

theorem encode_of_decodeKey {w : Word} {i : Instr} (hop : (opField w).toNat = 0xE)
    (h : decodeKey w = some i) : encode i = w ∧ i.wellFormed = true := by
  unfold decodeKey at h
  repeat' split at h
  all_goals cases h
  all_goals exact ⟨encXnn_of_op_nn hop ‹_›, rfl⟩

theorem encode_of_decodeIndex {w : Word} {i : Instr} (hop : (opField w).toNat = 0xF)
    (h : decodeIndex w = some i) : encode i = w ∧ i.wellFormed = true := by
  unfold decodeIndex at h
  repeat' split at h
  all_goals cases h
  all_goals exact ⟨encXnn_of_op_nn hop ‹_›, rfl⟩

theorem encode_of_decodeWord {w : Word} {i : Instr} (h : decodeWord w = some i) :
    encode i = w ∧ i.wellFormed = true := by
  unfold decodeWord at h
  -- One case per value of `op`, in the decoder's order.
  split at h
  case h_1 => exact encode_of_decodeSystem h
  case h_6 hop | h_10 hop =>
    split at h <;> cases h
    exact ⟨encXyn_of_op_n hop (congrArg BitVec.toNat ‹nField w = 0#4›), rfl⟩
  case h_9 hop => exact encode_of_decodeAlu hop h
  case h_14 hop => cases h; exact ⟨encXyn_of_op_n hop rfl, decide_eq_true (nField w).isLt⟩
  case h_15 hop => exact encode_of_decodeKey hop h
  case h_16 hop => exact encode_of_decodeIndex hop h
  case h_17 => cases h
  case h_2 hop | h_3 hop | h_11 hop | h_12 hop => cases h; exact ⟨encNnn_of_op hop, rfl⟩
  case h_4 hop | h_5 hop | h_7 hop | h_8 hop | h_13 hop => cases h; exact ⟨encXnn_of_op hop, rfl⟩

/-- Settles O9: in each group of the decoder, the word is put together again from the fields it was read by. -/
theorem encodeOfDecodeIsIdentity : Obligations.EncodeOfDecodeIsIdentity := by
  unfold Obligations.EncodeOfDecodeIsIdentity
  exact fun _ _ => encode_of_decodeWord

/-- Settles O11: the ten words are closed terms, on which the decoder evaluates. -/
theorem sampleWordsDecode : Obligations.SampleWordsDecode := by
  unfold Obligations.SampleWordsDecode
  exact ⟨rfl, rfl, rfl, rfl, rfl, rfl, rfl, rfl, rfl, rfl⟩

end Sys2Proof
end

section
/-! SUPPORT. The call stack and JP V0 (R140, R142, R147): what CALL and RET do by the count of occupied
entries. -/

namespace Sys2Proof

open Sys2Proof.Machine

/-- Also the frame of every update outside the rest: its conjuncts read no other field, so they are these. -/
theorem sameRest_refl (s : State) : sameRest s s := ⟨rfl, rfl, rfl, rfl, rfl, rfl, rfl, rfl, rfl⟩

/-! ### CALL and RET by case -/

section
variable {s : State}

theorem exec_call_full (nnn : Nnn) (h : s.sp.val = 16) : exec (.call nnn) s = raise .stackOverflow s :=
  dif_pos h

theorem exec_ret_empty (h : s.sp.val = 0) : exec .ret s = raise .stackUnderflow s := dif_pos h

/-- The state CALL leaves when there is room. -/
def afterCall (nnn : Nnn) (s : State) (h : s.sp.val < 16) : State :=
  { s with
    stack := s.stack.set s.sp.val s.pc h
    sp := ⟨s.sp.val + 1, by omega⟩
    pc := addrOperand nnn }

theorem exec_call_room (nnn : Nnn) (h : s.sp.val < 16) :
    exec (.call nnn) s = .next (afterCall nnn s h) := dif_neg h.ne

/-- A stack that is not empty has a top entry. -/
theorem exists_top (h : s.sp.val ≠ 0) : ∃ k : Fin 16, k.val + 1 = s.sp.val :=
  ⟨⟨s.sp.val - 1, by omega⟩, Nat.sub_add_cancel (Nat.pos_of_ne_zero h)⟩

/-- RET pops: the top entry becomes pc, and no entry is written. -/
theorem exec_ret_pops {k : Fin 16} (h : k.val + 1 = s.sp.val) :
    exec .ret s = .next { s with sp := k.castSucc, pc := s.stack[k] } := by
  have hk : s.sp.val - 1 = k.val := by omega
  have popped : exec .ret s = .next { s with
      sp := ⟨s.sp.val - 1, by omega⟩
      pc := s.stack[s.sp.val - 1]'(by omega) } := dif_neg (by omega)
  simp only [popped, hk]
  rfl

end

/-! ### The obligations -/

/-- Settles O18: with room, CALL is a push and a jump. -/
theorem callPushesReturnAddress : Obligations.CallPushesReturnAddress := by
  unfold Obligations.CallPushesReturnAddress
  intro nnn s h
  refine ⟨_, exec_call_room nnn h, rfl, rfl, fun k => ?_, fun _ _ => rfl, rfl, fun _ => rfl, ⟨rfl, rfl⟩,
    ⟨rfl, rfl, rfl⟩, sameRest_refl s⟩
  show (s.stack.set s.sp.val s.pc h)[k.val] = _
  rw [Vector.getElem_set]
  simp only [eq_comm (a := s.sp.val)]
  rfl

/-- Settles O19: on a stack that is not empty, RET pops. -/
theorem returnPopsTopEntry : Obligations.ReturnPopsTopEntry := by
  unfold Obligations.ReturnPopsTopEntry
  intro s h
  obtain ⟨k, hk⟩ := exists_top h.ne'
  refine ⟨_, exec_ret_pops hk, fun j hj => ?_, hk, rfl, fun _ _ => rfl, rfl, fun _ => rfl, ⟨rfl, rfl⟩,
    ⟨rfl, rfl, rfl⟩, sameRest_refl s⟩
  obtain rfl : k = j := by omega
  rfl

/-- Settles O20: a fault taken writes neither the stack, sp nor pc. -/
theorem stackGuardsFault : Obligations.StackGuardsFault := by
  unfold Obligations.StackGuardsFault
  exact ⟨fun nnn s h => ⟨_, exec_call_full nnn h, rfl, rfl, rfl, rfl, rfl⟩,
    fun s h => ⟨_, exec_ret_empty h, rfl, rfl, rfl, rfl, rfl⟩⟩

/-- Settles O21: the entry CALL pushes at sp is the one RET pops. -/
theorem callThenReturnRestoresPc : Obligations.CallThenReturnRestoresPc := by
  unfold Obligations.CallThenReturnRestoresPc
  intro nnn s t u h ht ⟨hstack, hsp⟩
  cases (exec_call_room nnn h).symm.trans ht
  have top : (⟨s.sp.val, h⟩ : Fin 16).val + 1 = u.sp.val := (congrArg Fin.val hsp).symm
  refine ⟨_, exec_ret_pops top, ?_, Fin.ext rfl⟩
  simp [hstack, afterCall]

/-- CALLs that fit the stack succeed and take one entry each. -/
theorem execCalls_fit (targets : List Nnn) (s : State) (h : s.sp.val + targets.length ≤ 16) :
    ∃ t, execCalls targets s = .next t ∧ t.sp.val = s.sp.val + targets.length ∧
      t.run = s.run ∧ t.fault = s.fault := by
  induction targets generalizing s with
  | nil => exact ⟨s, rfl, rfl, rfl, rfl⟩
  | cons nnn rest ih =>
    rw [List.length_cons] at h ⊢
    have room : s.sp.val < 16 := by omega
    have pushed : (afterCall nnn s room).sp.val = s.sp.val + 1 := rfl
    obtain ⟨t, ht, hsp, hrun, hfault⟩ := ih (afterCall nnn s room) (by omega)
    refine ⟨t, ?_, by omega, hrun, hfault⟩
    simp only [execCalls, exec_call_room nnn room, ht]

/-- Settles O22: sixteen CALLs from an empty stack fill it. -/
theorem sixteenNestedCallsFit : Obligations.SixteenNestedCallsFit := by
  unfold Obligations.SixteenNestedCallsFit
  intro targets last s hlen hsp
  obtain ⟨t, ht, htsp, hrun, hfault⟩ := execCalls_fit targets s (by omega)
  have full : t.sp.val = 16 := by omega
  exact ⟨t, ht, full, hrun, hfault, _, exec_call_full last full, rfl⟩

/-- Settles O24: a 12-bit address and a byte have a sum below 2^16. -/
theorem jumpV0AddsExactly : Obligations.JumpV0AddsExactly := by
  unfold Obligations.JumpV0AddsExactly
  intro nnn s
  refine ⟨_, rfl, ?_, onlyPcChanges_setPc _ s⟩
  have haddr := nnn.isLt
  have hbyte := (getV s 0).isLt
  rw [setPc_pc, BitVec.toNat_ofNat]
  exact Nat.mod_eq_of_lt (by omega)

end Sys2Proof
end

section
/-! SUPPORT. Results with a flag (R188 to R193): the values of sums, differences and shifts, and that the
result-and-flag write changes Vx and VF alone. -/

namespace Sys2Proof

open Sys2Proof.Machine

/-! ### The result-and-flag write -/

theorem getV_setResultAndFlag_flag (x : Reg) (b : Byte) (f : Bool) (s : State) :
    getV (setResultAndFlag x b f s) 15 = flagByte f := by
  rw [getV_setResultAndFlag, if_pos rfl]

theorem getV_setResultAndFlag_result {x : Reg} (hx : x ≠ 15) (b : Byte) (f : Bool) (s : State) :
    getV (setResultAndFlag x b f s) x = b := by
  rw [getV_setResultAndFlag, if_neg hx, if_pos rfl]

theorem sameRegsExcept_setResultAndFlag (x : Reg) (b : Byte) (f : Bool) (s : State) :
    sameRegsExcept [x, 15] s (setResultAndFlag x b f s) := by
  intro r hr
  simp only [List.mem_cons, List.not_mem_nil, or_false, not_or] at hr
  obtain ⟨hx, hf⟩ := hr
  rw [getV_setResultAndFlag, if_neg hf, if_neg hx]

theorem onlyRegsChange_setResultAndFlag (x : Reg) (b : Byte) (f : Bool) (s : State) :
    onlyRegsChange [x, 15] s (setResultAndFlag x b f s) :=
  onlyRegsChange_of_v (sameRegsExcept_setResultAndFlag x b f s)

/-! ### Values of results and flags -/

theorem flagByte_decide (p : Prop) [Decidable p] : flagByte (decide p) = if p then 1 else 0 := by
  by_cases h : p <;> simp [flagByte, h]

theorem flagByte_toNat (f : Bool) : (flagByte f).toNat = f.toNat := by cases f <;> rfl

/-- The difference that SUB and SUBN store, as an integer mod 256. -/
theorem toNat_difference (a b : Byte) :
    ((BitVec.ofNat 8 (a.toNat + 256 - b.toNat)).toNat : Int) = ((a.toNat : Int) - b.toNat) % 256 := by
  have hb := b.isLt
  rw [BitVec.toNat_ofNat]
  omega

theorem bit0Flag_toNat (a : Byte) : (bit0Flag a).toNat = a.toNat % 2 := by
  simp only [bit0Flag, BitVec.getLsbD, Nat.toNat_testBit, pow_zero, Nat.div_one]

theorem bit7Flag_toNat (a : Byte) : (bit7Flag a).toNat = a.toNat / 128 := by
  have ha := a.isLt
  simp only [bit7Flag, BitVec.getLsbD, Nat.toNat_testBit]
  omega

theorem toNat_halved (a : Byte) : (a >>> 1).toNat = a.toNat / 2 := by
  rw [BitVec.toNat_ushiftRight, Nat.shiftRight_one]

theorem toNat_doubled (a : Byte) : (a <<< 1).toNat = 2 * a.toNat % 256 := by
  rw [BitVec.toNat_shiftLeft, Nat.shiftLeft_eq, pow_one, mul_comm]

/-! ### SHL by variant -/

theorem exec_shlReg_left {s : State} (x y : Reg) (h : s.cfg.shlVariant = .left) :
    exec (.shlReg x y) s = .next (setResultAndFlag x (getV s x <<< 1) (bit7Flag (getV s x)) s) := by
  show execShlReg x y s = _
  simp only [execShlReg, h]

theorem exec_shlReg_sourceRight {s : State} (x y : Reg) (h : s.cfg.shlVariant = .sourceRight) :
    exec (.shlReg x y) s =
      .next (setResultAndFlag x (getV s x >>> 1) (takeShlFlag s).1 (takeShlFlag s).2) := by
  show execShlReg x y s = _
  simp only [execShlReg, h]

/-! ### The obligations -/

/-- Settles O27: the three meanings are one result-and-flag write. -/
theorem addAndSubtractWithFlag : Obligations.AddAndSubtractWithFlag := by
  unfold Obligations.AddAndSubtractWithFlag
  intro x y s a b
  refine ⟨⟨_, rfl, fun hx => ?add, ?carry, onlyRegsChange_setResultAndFlag x _ _ s⟩,
    ⟨_, rfl, fun hx => ?sub, ?subFlag, onlyRegsChange_setResultAndFlag x _ _ s⟩,
    ⟨_, rfl, fun hx => ?subn, ?subnFlag, onlyRegsChange_setResultAndFlag x _ _ s⟩⟩
  case add => rw [getV_setResultAndFlag_result hx, BitVec.toNat_ofNat]
  case sub | subn => rw [getV_setResultAndFlag_result hx, toNat_difference]
  case carry | subFlag | subnFlag => exact (getV_setResultAndFlag_flag ..).trans (flagByte_decide _)

/-- Settles O28: the two meanings are one result-and-flag write. -/
theorem shiftsByOneWithFlag : Obligations.ShiftsByOneWithFlag := by
  unfold Obligations.ShiftsByOneWithFlag
  intro x y s a
  refine ⟨⟨_, rfl, fun hx => ?shr, ?bit0, onlyRegsChange_setResultAndFlag x _ _ s⟩, fun hleft =>
    ⟨_, exec_shlReg_left x y hleft, fun hx => ?shl, ?bit7, onlyRegsChange_setResultAndFlag x _ _ s⟩⟩
  case shr => rw [getV_setResultAndFlag_result hx, toNat_halved]
  case bit0 => rw [getV_setResultAndFlag_flag, flagByte_toNat, bit0Flag_toNat]
  case shl => rw [getV_setResultAndFlag_result hx, toNat_doubled]
  case bit7 => rw [getV_setResultAndFlag_flag, flagByte_toNat, bit7Flag_toNat]

/-- Settles O29: the draw changes the counter alone, and the flag written is 0 or 1 whatever is drawn. -/
theorem sourceRightShlShiftsRight : Obligations.SourceRightShlShiftsRight := by
  unfold Obligations.SourceRightShlShiftsRight
  intro x y s hright
  refine ⟨_, exec_shlReg_sourceRight x y hright, fun hx => ?value, ?flag,
    sameRegsExcept_setResultAndFlag x _ _ (takeShlFlag s).2, rfl, rfl, ⟨rfl, rfl⟩, fun _ => rfl, ⟨rfl, rfl⟩,
    sameRest_refl s, rfl, rfl, rfl⟩
  case value => rw [getV_setResultAndFlag_result hx, toNat_halved]
  case flag =>
    rw [getV_setResultAndFlag_flag, flagByte_toNat]
    exact Bool.toNat_le _

/-- Settles O32: both are a write of I, the second of a value below 2^16. -/
theorem indexArithmetic : Obligations.IndexArithmetic := by
  unfold Obligations.IndexArithmetic
  refine ⟨fun x s => ⟨_, rfl, ?addI, onlyIndexChanges_setI _ s⟩,
    fun x s => ⟨_, rfl, ?ldF, onlyIndexChanges_setI _ s⟩⟩
  case addI => rw [setI_i, BitVec.toNat_ofNat]
  case ldF =>
    have hv := (getV s x).isLt
    have hlt : 0x050 + (getV s x).toNat * 5 < 65536 := by omega
    exact (BitVec.toNat_ofNat ..).trans (Nat.mod_eq_of_lt hlt)

end Sys2Proof
end

section
/-! SUPPORT. Random byte and keypad (R300 to R302, R336). -/

namespace Sys2Proof

open Sys2Proof.Machine

/-- Settles O41: RND is a draw, which changes the queue or the counter, and a write of Vx. -/
theorem randomByteIsMasked : Obligations.RandomByteIsMasked := by
  unfold Obligations.RandomByteIsMasked
  intro x nn s
  refine ⟨_, rfl, fun b rest hq => ?queued, fun hq => ?free, ?masked, ?frame⟩
  case queued =>
    rw [takeEntropy_queued hq]
    exact ⟨getV_setV_same x _ _, rfl, rfl⟩
  case free =>
    rw [takeEntropy_free hq]
    exact ⟨getV_setV_same x _ _, hq, rfl⟩
  case masked =>
    rw [getV_setV_same, BitVec.and_assoc, BitVec.and_not_self]
    exact BitVec.and_zero
  case frame =>
    have regs := sameRegsExcept_setV x ((takeEntropy s).1 &&& nn) (takeEntropy s).2
    rw [takeEntropy_only] at regs ⊢
    exact ⟨regs, rfl, rfl, ⟨rfl, rfl⟩, fun _ => rfl, ⟨rfl, rfl⟩, rfl,
      sameRest_refl s⟩

/-- The key test on a key value that passes: one sample, and a skip on the level. -/
theorem skipOnKey_samples {x : Reg} {s : State} (h : (getV s x).toNat ≤ 15 ∨ s.cfg.rangePolicy = .wrap)
    (want : Bool) : skipOnKey x want s =
      .next (skipIf (keyLevel (takeKeys s).1 ((getV s x).toNat % 16) == want) (takeKeys s).2) := by
  simp only [skipOnKey, keyOperand_eq, if_pos h]

theorem skipOnKey_faults {x : Reg} {s : State} (hp : s.cfg.rangePolicy = .fault) (h : 15 < (getV s x).toNat)
    (want : Bool) : skipOnKey x want s = raise (.keyIndexOutOfRange (getV s x)) s := by
  have hno : ¬ ((getV s x).toNat ≤ 15 ∨ s.cfg.rangePolicy = .wrap) := by simp [hp, h]
  simp only [skipOnKey, keyOperand_eq, if_neg hno]

/-- A skip writes pc alone. -/
theorem skipIf_eq (c : Bool) (s : State) : skipIf c s = { s with pc := if c then s.pc + 2 else s.pc } := by
  cases c <;> rfl

/-- The pc of SKNP's skip, by the level. -/
theorem ite_beq_false (l : Bool) (a b : Word) : (if l == false then a else b) = if l then b else a := by
  cases l <;> rfl

/-- Settles O42: both sample once, and their skips are on opposite levels. -/
theorem keySkipsFollowTheLevel : Obligations.KeySkipsFollowTheLevel := by
  unfold Obligations.KeySkipsFollowTheLevel
  intro x s h
  have only := takeKeys_only s
  refine ⟨(takeKeys s).1, _, _, fun l rest hq => ?queued, fun hq => ?free, skipOnKey_samples h true,
    skipOnKey_samples h false, ?pressed, ?released, ?frame⟩
  case queued => rw [takeKeys_queued hq]; exact ⟨rfl, skipIf_keysIn _ _, skipIf_draws _ _⟩
  case free =>
    rw [takeKeys_free hq]
    exact ⟨rfl, (skipIf_keysIn _ _).trans hq, skipIf_draws _ _⟩
  case pressed => rw [skipIf_pc, only]; simp [keyLevel]
  case released =>
    rw [skipIf_eq, skipIf_eq, only, ite_beq_false]
    rfl
  case frame =>
    rw [skipIf_eq, only]
    exact ⟨fun _ _ => rfl, rfl, ⟨rfl, rfl⟩, fun _ => rfl, ⟨rfl, rfl⟩, rfl,
      sameRest_refl s⟩

/-- Settles O43: the key value is checked before the levels are sampled. -/
theorem keyValueOutOfRangeFaults : Obligations.KeyValueOutOfRangeFaults := by
  unfold Obligations.KeyValueOutOfRangeFaults
  exact fun x s hp h => ⟨⟨_, skipOnKey_faults hp h true, rfl⟩, ⟨_, skipOnKey_faults hp h false, rfl⟩⟩

end Sys2Proof
end

section
/-! SUPPORT. What executing any instruction can do, said once (R31 to R42, R333): it raises a fault, or it
completes and has written only what its kind may write. The rules about every instruction follow. -/

namespace Sys2Proof

open Sys2Proof.Machine

/-! ### An instruction that completes -/

/-- What an instruction that completes has left alone, by kind (R31 to R43), and that memory keeps its
canonical form. -/
structure Completed (i : Instr) (s t : State) : Prop where
  regs : ∀ r, r ∉ destRegs i → (writesFlag i → r ≠ 15) → getV t r = getV s r
  index : ¬ writesIndex i → t.i = s.i
  pc : ¬ transfersControl i → t.pc = s.pc
  stack : ¬ touchesStack i → t.stack = s.stack ∧ t.sp = s.sp
  memory : ¬ writesMemory i → t.mem = s.mem
  fb : ¬ writesFramebuffer i → t.fb = s.fb
  displayOut : i ≠ .cls → t.displayOut = s.displayOut
  rest : sameRest s t
  mem_wf : Memory.wf s.cfg s.mem = true → Memory.wf t.cfg t.mem = true

namespace Completed

variable {i : Instr} {s t : State}

theorem refl (i : Instr) (s : State) : Completed i s s where
  regs _ _ _ := rfl
  index _ := rfl
  pc _ := rfl
  stack _ := ⟨rfl, rfl⟩
  memory _ := rfl
  fb _ := rfl
  displayOut _ := rfl
  rest := sameRest_refl s
  mem_wf := id

/-! Each update of the state keeps what the instruction leaves alone, when its kind may make the update. -/

theorem setV (h : Completed i s t) {x : Reg} (hx : x ∈ destRegs i) (b : Byte) :
    Completed i s (setV x b t) :=
  { h with
    regs := fun r hr hf => (getV_setV_other (fun e : r = x => hr (e ▸ hx)) b t).trans (h.regs r hr hf) }

theorem setFlag (h : Completed i s t) (hi : writesFlag i) (f : Bool) : Completed i s (setFlag f t) :=
  { h with regs := fun r hr hf => (getV_setV_other (hf hi) _ t).trans (h.regs r hr hf) }

theorem setResultAndFlag (h : Completed i s t) {x : Reg} (hx : x ∈ destRegs i) (hi : writesFlag i)
    (b : Byte) (f : Bool) : Completed i s (setResultAndFlag x b f t) :=
  (h.setV hx b).setFlag hi f

theorem loadRegs (h : Completed i s t) {bs : List Byte}
    (hd : ∀ r : Reg, r.val < bs.length → r ∈ destRegs i) : Completed i s (loadRegsFrom 0 bs t) := by
  have regs : ∀ r, r ∉ destRegs i → (writesFlag i → r ≠ 15) →
      getV (loadRegsFrom 0 bs t) r = getV s r := by
    intro r hr hf
    rw [getV_loadRegsFrom, if_neg fun hlt => hr (hd r (by omega)), h.regs r hr hf]
  rw [loadRegsFrom_only] at regs ⊢
  exact { h with regs := regs }

theorem setI (h : Completed i s t) (hi : writesIndex i) (a : Word) : Completed i s (setI a t) :=
  { h with index := fun hn => absurd hi hn }

theorem setPc (h : Completed i s t) (hi : transfersControl i) (a : Word) : Completed i s (setPc a t) :=
  { h with pc := fun hn => absurd hi hn }

theorem skipIf (h : Completed i s t) (hi : transfersControl i) (c : Bool) : Completed i s (skipIf c t) := by
  cases c with
  | false => exact h
  | true => exact h.setPc hi (t.pc + 2)

/-- CALL and RET: a new stack, sp and pc. -/
theorem stackAndPc (h : Completed i s t) (hi : touchesStack i) (hc : transfersControl i)
    (stack : Vector Word 16) (sp : Fin 17) (pc : Word) :
    Completed i s { t with stack := stack, sp := sp, pc := pc } :=
  { h with stack := fun hn => absurd hi hn, pc := fun hn => absurd hc hn }

theorem writeBytes (h : Completed i s t) (hi : writesMemory i) {cells : List (Nat × Byte)}
    (hlt : ∀ e ∈ cells, e.1 < memSize) : Completed i s (writeBytes cells t) := by
  have wf := fun hs => writeBytes_keeps_wf cells t hlt (h.mem_wf hs)
  rw [writeBytes_only] at wf ⊢
  exact { h with memory := fun hn => absurd hi hn, mem_wf := wf }

theorem newFb (h : Completed i s t) (hi : writesFramebuffer i) (fb : Framebuffer) :
    Completed i s { t with fb := fb } :=
  { h with fb := fun hn => absurd hi hn }

theorem takeEntropy (h : Completed i s t) : Completed i s (takeEntropy t).2 := by
  rw [takeEntropy_only]
  exact { h with }

theorem takeKeys (h : Completed i s t) : Completed i s (takeKeys t).2 := by
  rw [takeKeys_only]
  exact { h with }

theorem takeShlFlag (h : Completed i s t) : Completed i s (takeShlFlag t).2 := { h with }

end Completed

/-! ### What `exec` can do -/

/-- The outcome `o` of executing in `s` is a fault raised, an address or key fault only under
`FAULT` (R330). -/
def RaisesFault (s : State) (o : Host.Outcome State Fault Refusal) : Prop :=
  ∃ c, o = raise c s ∧ (c.isRange → s.cfg.rangePolicy = .fault)

/-- The outcome `o` of executing `i` in `s` is a fault raised or a completion. -/
def RaisesOrCompletes (i : Instr) (s : State) (o : Host.Outcome State Fault Refusal) : Prop :=
  RaisesFault s o ∨ ∃ t, o = .next t ∧ Completed i s t

section
variable {i : Instr} {s : State}

theorem raisesOrCompletes_next {t : State} (h : Completed i s t) : RaisesOrCompletes i s (.next t) :=
  .inr ⟨t, rfl, h⟩

/-- An instruction behind the address check completes if it does on effective addresses. -/
theorem raisesOrCompletes_withEffAddrs {addrs : List Nat}
    {go : List Nat → Host.Outcome State Fault Refusal}
    (h : ∀ as, effAddrs s.cfg.rangePolicy addrs = .ok as → RaisesOrCompletes i s (go as)) :
    RaisesOrCompletes i s (withEffAddrs s addrs go) := by
  obtain ⟨e, he, ho⟩ | ⟨as, has, ho⟩ := withEffAddrs_cases (o := withEffAddrs s addrs go) rfl
  · exact .inl ⟨_, ho, fun _ => ((effAddrs_eq_error_iff _ _ _).mp he).1⟩
  · exact ho ▸ h as has

/-- A store to effective addresses. -/
theorem raisesOrCompletes_store (hi : writesMemory i) (addrs : List Nat) (bytes : List Byte) :
    RaisesOrCompletes i s
      (withEffAddrs s addrs fun as => .next (writeBytes (as.zip bytes) s)) :=
  raisesOrCompletes_withEffAddrs fun _ has => raisesOrCompletes_next
    ((Completed.refl i s).writeBytes hi fun e he => effAddrs_lt has e.1 (List.of_mem_zip he).1)

theorem raisesOrCompletes_skipOnKey (hi : transfersControl i) (x : Reg) (want : Bool) :
    RaisesOrCompletes i s (skipOnKey x want s) := by
  obtain ⟨⟨-, hp⟩, ho⟩ | ⟨-, ho⟩ := skipOnKey_cases x want s
  · exact .inl ⟨_, ho, fun _ => hp⟩
  · exact ho ▸ raisesOrCompletes_next ((Completed.refl i s).takeKeys.skipIf hi _)

end

/-- The range faults are those of codes 4 and 5 (R330). -/
theorem code_of_isRange {c : FaultCause} (h : c.isRange) : 4 ≤ c.code := by
  obtain ⟨a, v, rfl | rfl⟩ := h <;> simp [FaultCause.code]

theorem exec_call_raisesOrCompletes (nnn : Nnn) (s : State) :
    RaisesOrCompletes (.call nnn) s (exec (.call nnn) s) := by
  obtain h | h := (Nat.le_of_lt_succ s.sp.isLt).eq_or_lt
  · exact .inl ⟨_, exec_call_full nnn h, fun hr => absurd (code_of_isRange hr) (by decide)⟩
  · exact .inr ⟨_, exec_call_room nnn h, (Completed.refl _ s).stackAndPc ⟨nnn, .inl rfl⟩
      ⟨0, 0, 0, nnn, by simp⟩ _ _ _⟩

theorem exec_ret_raisesOrCompletes (s : State) : RaisesOrCompletes .ret s (exec .ret s) := by
  by_cases h : s.sp.val = 0
  · exact .inl ⟨_, exec_ret_empty h, fun hr => absurd (code_of_isRange hr) (by decide)⟩
  · obtain ⟨k, hk⟩ := exists_top h
    exact .inr ⟨_, exec_ret_pops hk, (Completed.refl _ s).stackAndPc ⟨0, .inr rfl⟩
      ⟨0, 0, 0, 0, .inl rfl⟩ s.stack _ _⟩

theorem exec_shlReg_raisesOrCompletes (x y : Reg) (s : State) :
    RaisesOrCompletes (.shlReg x y) s (exec (.shlReg x y) s) := by
  have hdest : x ∈ destRegs (.shlReg x y) := List.mem_singleton_self x
  have hflag : writesFlag (.shlReg x y) := ⟨x, y, 0, by simp⟩
  cases h : s.cfg.shlVariant with
  | left =>
    exact .inr ⟨_, exec_shlReg_left x y h, (Completed.refl _ s).setResultAndFlag hdest hflag _ _⟩
  | sourceRight =>
    exact .inr ⟨_, exec_shlReg_sourceRight x y h,
      (Completed.refl _ s).takeShlFlag.setResultAndFlag hdest hflag _ _⟩

theorem exec_ldLoad_raisesOrCompletes (x : Reg) (s : State) :
    RaisesOrCompletes (.ldLoad x) s (exec (.ldLoad x) s) := by
  refine raisesOrCompletes_withEffAddrs fun as has => raisesOrCompletes_next ?_
  refine (Completed.refl _ s).loadRegs fun r hr => (mem_regsThrough x r).2 ?_
  obtain ⟨-, rfl⟩ := (effAddrs_eq_ok_iff _ _ _).mp has
  simp only [indexAddrs, List.length_map, List.length_range] at hr
  exact Nat.le_of_lt_succ hr

/-- What executing an instruction can do: it raises a fault, or it completes. By the kind of update each
meaning makes. -/
theorem exec_raisesOrCompletes (i : Instr) (s : State) : RaisesOrCompletes i s (exec i s) := by
  have idle := Completed.refl i s
  cases i
  case cls =>
    have drawn := idle.newFb ⟨0, 0, 0, .inl rfl⟩ clearedFb
    exact raisesOrCompletes_next { drawn with displayOut := fun hn => absurd rfl hn }
  case ret => exact exec_ret_raisesOrCompletes s
  case call nnn => exact exec_call_raisesOrCompletes nnn s
  case jp nnn | jpV0 nnn =>
    exact raisesOrCompletes_next (idle.setPc ⟨0, 0, 0, nnn, by simp⟩ _)
  case seImm x nn | sneImm x nn =>
    exact raisesOrCompletes_next (idle.skipIf ⟨x, 0, nn, 0, by simp⟩ _)
  case seReg x y | sneReg x y =>
    exact raisesOrCompletes_next (idle.skipIf ⟨x, y, 0, 0, by simp⟩ _)
  case ldImm x nn | addImm x nn | ldReg x y | orReg x y | andReg x y | xorReg x y =>
    exact raisesOrCompletes_next (idle.setV (List.mem_singleton_self x) _)
  case addReg x y | subReg x y | shrReg x y | subnReg x y =>
    exact raisesOrCompletes_next
      (idle.setResultAndFlag (List.mem_singleton_self x) ⟨x, y, 0, by simp⟩ _ _)
  case shlReg x y => exact exec_shlReg_raisesOrCompletes x y s
  case rnd x nn =>
    exact raisesOrCompletes_next (idle.takeEntropy.setV (List.mem_singleton_self x) _)
  case drw x y n =>
    exact raisesOrCompletes_withEffAddrs fun _ _ => raisesOrCompletes_next
      ((idle.newFb ⟨x, y, n, .inr rfl⟩ _).setFlag ⟨x, y, n, by simp⟩ _)
  case skp x => exact raisesOrCompletes_skipOnKey ⟨x, 0, 0, 0, by simp⟩ x true
  case sknp x => exact raisesOrCompletes_skipOnKey ⟨x, 0, 0, 0, by simp⟩ x false
  case ldI nnn => exact raisesOrCompletes_next (idle.setI ⟨nnn, 0, by simp⟩ _)
  case addI x | ldF x => exact raisesOrCompletes_next (idle.setI ⟨0, x, by simp⟩ _)
  case ldB x => exact raisesOrCompletes_store ⟨x, .inl rfl⟩ _ _
  case ldStore x => exact raisesOrCompletes_store ⟨x, .inr rfl⟩ _ _
  case ldLoad x => exact exec_ldLoad_raisesOrCompletes x s

/-- The state an instruction leaves: the fault taken, or a completion. -/
theorem exec_next {i : Instr} {s t : State} (h : exec i s = .next t) :
    (∃ c, faultTaken c s t ∧ (c.isRange → s.cfg.rangePolicy = .fault)) ∨ Completed i s t := by
  obtain ⟨c, hc, hrange⟩ | ⟨t', ht', hdone⟩ := exec_raisesOrCompletes i s
  · exact .inl ⟨c, Host.Outcome.next.inj (h.symm.trans hc), hrange⟩
  · cases h.symm.trans ht'
    exact .inr hdone

theorem exec_answers_next (i : Instr) (s : State) : ∃ t, exec i s = .next t := by
  obtain ⟨c, hc, -⟩ | ⟨t, ht, -⟩ := exec_raisesOrCompletes i s
  · exact ⟨_, hc⟩
  · exact ⟨t, ht⟩

theorem Completed.run_eq {i : Instr} {s t : State} (h : Completed i s t) : t.run = s.run := by
  obtain ⟨-, -, -, -, hrun, -⟩ := h.rest
  exact hrun

/-! ### The rules about every instruction -/

/-- Settles O44: a fault raised is a next state, and a completion leaves `run` alone. -/
theorem everyInstructionAnswersNext : Obligations.EveryInstructionAnswersNext := by
  unfold Obligations.EveryInstructionAnswersNext
  intro i s
  obtain ⟨t, ht⟩ := exec_answers_next i s
  refine ⟨t, ht, ?_⟩
  obtain ⟨c, rfl, -⟩ | hdone := exec_next ht
  · exact .inr ⟨rfl, rfl⟩
  · exact .inl hdone.run_eq

/-- Settles O45: the fault taken writes none of the components, and a completion only those of its kind. -/
theorem onlyTheListedWriters : Obligations.OnlyTheListedWriters := by
  unfold Obligations.OnlyTheListedWriters
  intro i s t h
  obtain ⟨c, rfl, -⟩ | hdone := exec_next h
  · exact ⟨fun _ _ _ => rfl, fun _ => rfl, fun _ => rfl, fun _ => ⟨rfl, rfl⟩, fun _ _ => rfl, fun _ => rfl,
      fun _ => rfl, rfl, rfl, rfl, rfl, rfl, rfl, rfl⟩
  · obtain ⟨hdt, hst, hstep, hframe, -, -, hcfg, hload, hhost⟩ := hdone.rest
    exact ⟨hdone.regs, hdone.index, hdone.pc, hdone.stack, fun hi => readByte_congr (hdone.memory hi) hcfg,
      hdone.fb, hdone.displayOut, hdt, hst, hstep, hframe, hcfg, hload, hhost⟩

/-- Settles O46: a completion from a RUNNING state is RUNNING, so a FAULTED state is the fault taken. -/
theorem faultsArePrecise : Obligations.FaultsArePrecise := by
  unfold Obligations.FaultsArePrecise
  intro i s t hrun h hfaulted
  obtain ⟨c, hc, -⟩ | hdone := exec_next h
  · exact ⟨c, hc⟩
  · rw [hdone.run_eq, hrun] at hfaulted
    cases hfaulted

end Sys2Proof
end

section
/-! SUPPORT. What a CPU step and a step of the machine keep (R42 to R44, R341, R343): the parameters and the
scheduler's fields, the canonical memory, and that the fault record agrees with `run`. -/

namespace Sys2Proof

open Sys2Proof.Machine

/-! ### What a CPU step can do -/

/-- What a CPU step leaves: everything outside the program's reach is as before, memory keeps its canonical
form, and either status and record are as before or a fault was taken, an address or key fault only under
`FAULT`. -/
structure CpuStepLeaves (s t : State) : Prop where
  rest : sameRest { s with run := t.run, fault := t.fault } t
  mem_wf : Memory.wf s.cfg s.mem = true → Memory.wf t.cfg t.mem = true
  status : (t.run = s.run ∧ t.fault = s.fault) ∨
    (t.run = .faulted ∧ ∃ r, t.fault = some r ∧ (r.cause.isRange → s.cfg.rangePolicy = .fault))

namespace CpuStepLeaves

variable {s t : State}

theorem cfg_eq (h : CpuStepLeaves s t) : t.cfg = s.cfg := by
  obtain ⟨-, -, -, -, -, -, hcfg, -, -⟩ := h.rest
  exact hcfg

theorem sinceLastStep_eq (h : CpuStepLeaves s t) : t.sinceLastStep = s.sinceLastStep := by
  obtain ⟨-, -, hstep, -⟩ := h.rest
  exact hstep

theorem sinceLastFrame_eq (h : CpuStepLeaves s t) : t.sinceLastFrame = s.sinceLastFrame := by
  obtain ⟨-, -, -, hframe, -⟩ := h.rest
  exact hframe

theorem of_takeFault (c : FaultCause) (a : Word) (s : State)
    (hc : c.isRange → s.cfg.rangePolicy = .fault) : CpuStepLeaves s (takeFault c a s) where
  rest := sameRest_refl (takeFault c a s)
  mem_wf := id
  status := .inr ⟨rfl, _, rfl, hc⟩

/-- The fetch's advance of pc is outside everything a CPU step keeps. -/
theorem of_advancePc (h : CpuStepLeaves (advancePc s) t) : CpuStepLeaves s t := { h with }

theorem of_exec {i : Instr} (h : exec i s = .next t) : CpuStepLeaves s t := by
  obtain ⟨c, rfl, hc⟩ | hdone := exec_next h
  · exact of_takeFault c _ s hc
  · obtain ⟨hdt, hst, hstep, hframe, hrun, hfault, hcfg, hload, hhost⟩ := hdone.rest
    exact ⟨⟨hdt, hst, hstep, hframe, rfl, rfl, hcfg, hload, hhost⟩, hdone.mem_wf, .inl ⟨hrun, hfault⟩⟩

end CpuStepLeaves

theorem cpuStep_leaves {s t : State} (h : cpuStep s = .next t) : CpuStepLeaves s t := by
  obtain ⟨a, hfetch, hs⟩ | ⟨w, -, -, hs⟩ | ⟨w, i, -, -, hs⟩ := cpuStep_cases s
  · cases h.symm.trans hs
    exact .of_takeFault _ _ s fun _ => (fetch16_error hfetch).1
  · cases h.symm.trans hs
    have notRange : ¬ (FaultCause.unimplementedOpcode w).isRange :=
      fun hr => absurd (code_of_isRange hr) (by simp [FaultCause.code])
    exact .of_advancePc (.of_takeFault _ _ _ fun hr => absurd hr notRange)
  · exact .of_advancePc (.of_exec (hs.symm.trans h))

theorem cpuStep_answers_next (s : State) : ∃ t, cpuStep s = .next t := by
  obtain ⟨a, -, hs⟩ | ⟨w, -, -, hs⟩ | ⟨w, i, -, -, hs⟩ := cpuStep_cases s
  · exact ⟨_, hs⟩
  · exact ⟨_, hs⟩
  · obtain ⟨t, ht⟩ := exec_answers_next i (advancePc s)
    exact ⟨t, hs.trans ht⟩

/-! ### The parts of an iteration keep the invariant -/

section
variable {s t : State}

/-- A step of a RUNNING block keeps the invariant: the record and `run` change together. -/
theorem cpuStep_keeps_inv (hs : s.Inv) (hrun : s.run = .running) (h : cpuStep s = .next t) : t.Inv := by
  have left := cpuStep_leaves h
  obtain ⟨hdt, hst, hstep, hframe, -, -, hcfg, hload, hhost⟩ := left.rest
  have loaded : s.load = some .ok := by
    by_contra hn
    exact absurd (hs.load_iff.2 hn) (by simp [hrun])
  exact {
    mem_wf := left.mem_wf hs.mem_wf
    cfg_wf := hcfg ▸ hs.cfg_wf
    step_time := hstep ▸ hs.step_time
    frame_time := hframe ▸ hs.frame_time
    host_ok := hhost ▸ hs.host_ok
    timers := ⟨hdt.trans hs.timers.1, hst.trans hs.timers.2⟩
    fault_iff := by
      obtain ⟨hr, hf⟩ | ⟨hr, r, hf, -⟩ := left.status
      · rw [hr, hf]; exact hs.fault_iff
      · simp [hr, hf]
    load_iff := by
      have hne : t.run ≠ .awaitingLoad := by
        obtain ⟨hr, -⟩ | ⟨hr, -⟩ := left.status <;> simp [hr, hrun]
      simp [hne, hload, loaded] }

theorem inv_accumulate {e : Rat} (he : 0 ≤ e) (hs : s.Inv) : (accumulate e s).Inv :=
  { hs with step_time := add_nonneg hs.step_time he, frame_time := add_nonneg hs.frame_time he }

/-- The subtraction of an interval follows the test that it is complete. -/
theorem stepPhase_keeps_inv (hs : s.Inv) (hrun : s.run = .running) (h : stepPhase s = .next t) : t.Inv := by
  obtain ⟨-, rfl⟩ | ⟨hle, u, hu, ⟨-, rfl⟩ | ⟨-, rfl⟩⟩ := stepPhase_next h
  · exact hs
  · exact cpuStep_keeps_inv hs hrun hu
  · have left := cpuStep_leaves hu
    have htime : 0 ≤ u.sinceLastStep - stepInterval u.cfg := by
      rw [left.cfg_eq, left.sinceLastStep_eq]
      exact sub_nonneg.2 hle
    exact { cpuStep_keeps_inv hs hrun hu with step_time := htime }

theorem framePhase_keeps_inv (hs : s.Inv) : (framePhase s).Inv := by
  obtain ⟨-, ht⟩ | ⟨hle, ht⟩ := framePhase_cases s
  · rw [ht]; exact hs
  · rw [ht]
    have hdt : decrementTimer s.dt = 0 := by rw [hs.timers.1]; rfl
    have hst : decrementTimer s.st = 0 := by rw [hs.timers.2]; rfl
    exact { hs with frame_time := sub_nonneg.2 hle, timers := ⟨hdt, hst⟩ }

theorem schedulerIteration_keeps_inv {e : Rat} {q : Bool} (he : 0 ≤ e) (hs : s.Inv)
    (hrun : s.run = .running) (h : schedulerIteration e q s = .next t) : t.Inv := by
  obtain ⟨-, rfl⟩ | ⟨-, u, hu, ⟨-, rfl⟩ | ⟨-, rfl⟩⟩ := schedulerIteration_next h
  · have unfaulted := hs.fault_iff
    have loaded := hs.load_iff
    simp only [hrun, reduceCtorEq, false_iff] at unfaulted loaded
    exact { hs with fault_iff := by simpa using unfaulted, load_iff := by simpa using loaded }
  · exact framePhase_keeps_inv (stepPhase_keeps_inv (inv_accumulate he hs) hrun hu)
  · exact stepPhase_keeps_inv (inv_accumulate he hs) hrun hu

/-! ### Reset and load keep the invariant -/

theorem inv_resetBlock (hs : s.Inv) : (resetBlock s).Inv where
  mem_wf := reset_memory_wf s.cfg
  cfg_wf := hs.cfg_wf
  step_time := le_refl 0
  frame_time := le_refl 0
  host_ok := hs.host_ok
  fault_iff := by simp [resetBlock, State.resetWith]
  load_iff := by simp [resetBlock, State.resetWith]
  timers := ⟨rfl, rfl⟩

/-- The bytes of a program that fits go to addresses in memory. -/
theorem romCells_lt {bytes : List Byte} (h : bytes.length ≤ 3584) :
    ∀ e ∈ romCells bytes, e.1 < memSize := by
  intro e he
  obtain ⟨k, hk, hek⟩ := List.mem_map.1 (List.of_mem_zip he).1
  rw [List.mem_range] at hk
  rw [← hek]
  show 0x200 + k < 4096
  omega

theorem loadProgram_keeps_inv {bytes : List Byte} (hs : s.Inv) (hrun : s.run = .awaitingLoad) :
    (loadProgram bytes s).Inv := by
  obtain ⟨-, ht⟩ | ⟨-, ht⟩ | ⟨-, hle, ht⟩ := loadProgram_cases bytes s
  · rw [ht]; exact { hs with load_iff := by simp [hrun] }
  · rw [ht]; exact { hs with load_iff := by simp [hrun] }
  · have wf := writeBytes_keeps_wf (romCells bytes) s (romCells_lt hle) hs.mem_wf
    rw [writeBytes_only] at wf
    have unfaulted := hs.fault_iff
    simp only [hrun, reduceCtorEq, false_iff] at unfaulted
    rw [ht]
    exact { hs with mem_wf := wf, fault_iff := by simpa using unfaulted, load_iff := by simp }

/-- Taking the oldest host action off the queue. -/
theorem inv_hostIn_tail {e : HostEvent} {rest : List HostEvent} (hs : s.Inv) (h : s.hostIn = e :: rest) :
    State.Inv { s with hostIn := rest } :=
  { hs with host_ok := fun a ha => hs.host_ok a (h ▸ List.mem_cons_of_mem e ha) }

end

/-! ### The rules about every step -/

/-- Settles O3: by the kind of step, each part of which keeps the invariant. -/
theorem stepKeepsInvariant : Obligations.StepKeepsInvariant := by
  unfold Obligations.StepKeepsInvariant
  intro s t hs h
  obtain ⟨-, hrun, hc⟩ | ⟨rest, hh, rfl⟩ | ⟨bytes, rest, hh, hrun, -, rfl⟩ | ⟨e, q, rest, hh, hrun, hi⟩ :=
    step_next h
  · exact cpuStep_keeps_inv hs hrun hc
  · exact inv_resetBlock (inv_hostIn_tail hs hh)
  · exact loadProgram_keeps_inv (inv_hostIn_tail hs hh) hrun
  · have he : 0 ≤ e := hs.host_ok (.iteration e q) (hh ▸ List.mem_cons_self)
    exact schedulerIteration_keeps_inv he (inv_hostIn_tail hs hh) hrun hi

/-- The parameters are kept, and a fault record that is new is an address or key fault only under `FAULT`. -/
def CfgAndFaultKept (s t : State) : Prop :=
  t.cfg = s.cfg ∧
    ∀ r, t.fault = some r → s.fault = some r ∨ (r.cause.isRange → s.cfg.rangePolicy = .fault)

theorem cfgAndFaultKept_refl (s : State) : CfgAndFaultKept s s := ⟨rfl, fun _ h => .inl h⟩

theorem cpuStep_cfgAndFaultKept {s t : State} (h : cpuStep s = .next t) : CfgAndFaultKept s t := by
  have left := cpuStep_leaves h
  refine ⟨left.cfg_eq, fun r hr => ?_⟩
  obtain ⟨-, hf⟩ | ⟨-, r', hf, hrange⟩ := left.status
  · exact .inl (hf ▸ hr)
  · cases hf.symm.trans hr
    exact .inr hrange

theorem stepPhase_cfgAndFaultKept {s t : State} (h : stepPhase s = .next t) : CfgAndFaultKept s t := by
  obtain ⟨-, rfl⟩ | ⟨-, u, hu, ⟨-, rfl⟩ | ⟨-, rfl⟩⟩ := stepPhase_next h
  · exact cfgAndFaultKept_refl _
  · exact cpuStep_cfgAndFaultKept hu
  · have kept : CfgAndFaultKept s u := cpuStep_cfgAndFaultKept hu
    exact kept

theorem schedulerIteration_cfgAndFaultKept {e : Rat} {q : Bool} {s t : State}
    (h : schedulerIteration e q s = .next t) : CfgAndFaultKept s t := by
  obtain ⟨-, rfl⟩ | ⟨-, u, hu, ⟨-, rfl⟩ | ⟨-, rfl⟩⟩ := schedulerIteration_next h
  · exact cfgAndFaultKept_refl s
  · have kept : CfgAndFaultKept (accumulate e s) u := stepPhase_cfgAndFaultKept hu
    obtain ⟨-, ht⟩ | ⟨-, ht⟩ := framePhase_cases u <;> rw [ht] <;> exact kept
  · have kept : CfgAndFaultKept (accumulate e s) t := stepPhase_cfgAndFaultKept hu
    exact kept

theorem loadProgram_cfgAndFaultKept (bytes : List Byte) (s : State) :
    CfgAndFaultKept s (loadProgram bytes s) := by
  obtain ⟨-, ht⟩ | ⟨-, ht⟩ | ⟨-, -, ht⟩ := loadProgram_cases bytes s <;>
    exact ht ▸ cfgAndFaultKept_refl s

theorem step_cfgAndFaultKept {s t : State} (h : step s = .next t) : CfgAndFaultKept s t := by
  obtain ⟨-, -, hc⟩ | ⟨rest, -, rfl⟩ | ⟨bytes, rest, -, -, -, rfl⟩ | ⟨e, q, rest, -, -, hi⟩ := step_next h
  · exact cpuStep_cfgAndFaultKept hc
  · exact ⟨rfl, fun r hr => nomatch hr⟩
  · exact loadProgram_cfgAndFaultKept bytes { s with hostIn := rest }
  · have kept : CfgAndFaultKept { s with hostIn := rest } t := schedulerIteration_cfgAndFaultKept hi
    exact kept

/-- Settles O7: every part of every step keeps the parameters. -/
theorem stepKeepsParameters : Obligations.StepKeepsParameters := by
  unfold Obligations.StepKeepsParameters
  exact fun s t h => (step_cfgAndFaultKept h).1

/-- Settles O37: a record that was not there before is a range fault only under `FAULT`. -/
theorem wrapRaisesNoRangeFault : Obligations.WrapRaisesNoRangeFault := by
  unfold Obligations.WrapRaisesNoRangeFault
  intro s t r hwrap hnone h hr hrange
  obtain hold | hnew := (step_cfgAndFaultKept h).2 r hr
  · cases hnone.symm.trans hold
  · cases hwrap.symm.trans (hnew hrange)

end Sys2Proof
end

section
/-! SUPPORT. The scheduler iteration and the status (R343 to R345), and what a program can see (R344): a CPU
step reads and writes nothing that depends on scheduler time, timers or the display port. -/

namespace Sys2Proof

open Sys2Proof.Machine

/-! ### What an iteration answers, by case -/

section
variable {s u : State} {e : Rat} {q : Bool} {rest : List HostEvent}

theorem step_iteration (hrun : s.run = .running) (hh : s.hostIn = .iteration e q :: rest) :
    step s = schedulerIteration e q { s with hostIn := rest } := by
  rw [step, hh]
  exact whenRunning_running (s := { s with hostIn := rest }) _ hrun

theorem stepPhase_idle (h : s.sinceLastStep < stepInterval s.cfg) : stepPhase s = .next s := by
  rw [stepPhase, if_neg (not_le.2 h)]

theorem stepPhase_halting (hle : stepInterval s.cfg ≤ s.sinceLastStep) (hu : cpuStep s = .next u)
    (hrun : u.run ≠ .running) : stepPhase s = .next u := by
  simp only [stepPhase, if_pos hle, hu, if_neg hrun]

theorem stepPhase_running (hle : stepInterval s.cfg ≤ s.sinceLastStep) (hu : cpuStep s = .next u)
    (hrun : u.run = .running) :
    stepPhase s = .next { u with sinceLastStep := s.sinceLastStep - stepInterval s.cfg } := by
  have left := cpuStep_leaves hu
  simp only [stepPhase, if_pos hle, hu, if_pos hrun, left.cfg_eq, left.sinceLastStep_eq]

theorem schedulerIteration_halting (hu : stepPhase (accumulate e s) = .next u) (hrun : u.run ≠ .running) :
    schedulerIteration e false s = .next u := by
  simp [schedulerIteration, hu, hrun]

theorem schedulerIteration_running (hu : stepPhase (accumulate e s) = .next u) (hrun : u.run = .running) :
    schedulerIteration e false s = .next (framePhase u) := by
  simp [schedulerIteration, hu, hrun]

theorem framePhase_idle (h : s.sinceLastFrame < frameInterval s.cfg) : framePhase s = s := by
  rw [framePhase, if_neg (not_le.2 h)]

theorem framePhase_tick (h : frameInterval s.cfg ≤ s.sinceLastFrame) : framePhase s = frameTick s := by
  rw [framePhase, if_pos h]

end

theorem decrementTimer_eq (b : Byte) : decrementTimer b = BitVec.ofNat 8 (b.toNat - 1) := by
  unfold decrementTimer
  split
  · bv_omega
  · have hb : b.toNat = 0 := by omega
    rw [hb]
    rfl

theorem decrementTimer_toNat (b : Byte) : (decrementTimer b).toNat = b.toNat - 1 := by
  rw [decrementTimer_eq, BitVec.toNat_ofNat]
  exact Nat.mod_eq_of_lt (by have := b.isLt; omega)

/-! ### What a program can see -/

/-- An outcome as a program sees it. -/
def viewOutcome : Host.Outcome State Fault Refusal → Host.Outcome State Fault Refusal
  | .next t => .next (programView t)
  | .fault r => .fault r
  | .refused r => .refused r

theorem viewOutcome_next {t t' : State} (h : t' = programView t) :
    viewOutcome (.next t') = viewOutcome (.next t) := by
  subst h
  rfl

theorem writeBytes_programView (cells : List (Nat × Byte)) (s : State) :
    writeBytes cells (programView s) = programView (writeBytes cells s) := by
  induction cells generalizing s with
  | nil => rfl
  | cons cell cells ih => exact ih (writeByte cell.1 cell.2 s)

theorem loadRegsFrom_programView (k : Nat) (bs : List Byte) (s : State) :
    loadRegsFrom k bs (programView s) = programView (loadRegsFrom k bs s) := by
  induction bs generalizing k s with
  | nil => rfl
  | cons b bs ih =>
    rw [loadRegsFrom, loadRegsFrom]
    split
    next hk => exact ih (k + 1) (setV ⟨k, hk⟩ b s)
    next => exact ih (k + 1) s

theorem skipIf_programView (c : Bool) (s : State) : skipIf c (programView s) = programView (skipIf c s) := by
  cases c <;> rfl

theorem takeEntropy_programView (s : State) :
    takeEntropy (programView s) = ((takeEntropy s).1, programView (takeEntropy s).2) := by
  cases h : s.entropyIn with
  | nil => rw [takeEntropy_free h, takeEntropy_free (s := programView s) h]; rfl
  | cons b bs => rw [takeEntropy_queued h, takeEntropy_queued (s := programView s) h]; rfl

theorem takeKeys_programView (s : State) :
    takeKeys (programView s) = ((takeKeys s).1, programView (takeKeys s).2) := by
  cases h : s.keysIn with
  | nil => rw [takeKeys_free h, takeKeys_free (s := programView s) h]; rfl
  | cons b bs => rw [takeKeys_queued h, takeKeys_queued (s := programView s) h]; rfl

theorem viewOutcome_withEffAddrs (s : State) (addrs : List Nat)
    {go go' : List Nat → Host.Outcome State Fault Refusal}
    (h : ∀ as, viewOutcome (go' as) = viewOutcome (go as)) :
    viewOutcome (withEffAddrs (programView s) addrs go') = viewOutcome (withEffAddrs s addrs go) := by
  cases ha : effAddrs s.cfg.rangePolicy addrs with
  | error a => rw [withEffAddrs_error ha, withEffAddrs_error (s := programView s) ha]; rfl
  | ok as => rw [withEffAddrs_ok ha, withEffAddrs_ok (s := programView s) ha]; exact h as

theorem viewOutcome_store (s : State) (addrs : List Nat) (bytes : List Byte) :
    viewOutcome (withEffAddrs (programView s) addrs
        fun as => .next (writeBytes (as.zip bytes) (programView s))) =
      viewOutcome (withEffAddrs s addrs fun as => .next (writeBytes (as.zip bytes) s)) :=
  viewOutcome_withEffAddrs s addrs fun as => viewOutcome_next (writeBytes_programView (as.zip bytes) s)

theorem viewOutcome_skipOnKey (x : Reg) (want : Bool) (s : State) :
    viewOutcome (skipOnKey x want (programView s)) = viewOutcome (skipOnKey x want s) := by
  have hkey : keyOperand (programView s) x = keyOperand s x := rfl
  unfold skipOnKey
  rw [hkey]
  cases keyOperand s x with
  | none => rfl
  | some k =>
    refine viewOutcome_next ?_
    rw [takeKeys_programView, skipIf_programView]

/-- An instruction run on the view of a state and on the state itself leave one view. Most meanings read and
write only fields that the view keeps, so both sides are the same term. -/
theorem viewOutcome_exec (i : Instr) (s : State) :
    viewOutcome (exec i (programView s)) = viewOutcome (exec i s) := by
  cases i
  case ret =>
    by_cases h : s.sp.val = 0
    · rw [exec_ret_empty h, exec_ret_empty (s := programView s) h]; rfl
    · obtain ⟨k, hk⟩ := exists_top h
      rw [exec_ret_pops hk, exec_ret_pops (s := programView s) hk]; rfl
  case call nnn =>
    obtain h | h := (Nat.le_of_lt_succ s.sp.isLt).eq_or_lt
    · rw [exec_call_full nnn h, exec_call_full (s := programView s) nnn h]; rfl
    · rw [exec_call_room nnn h, exec_call_room (s := programView s) nnn h]; rfl
  case seImm x nn | sneImm x nn => exact viewOutcome_next (skipIf_programView _ s)
  case seReg x y | sneReg x y => exact viewOutcome_next (skipIf_programView _ s)
  case shlReg x y =>
    cases h : s.cfg.shlVariant with
    | left => rw [exec_shlReg_left x y h, exec_shlReg_left (s := programView s) x y h]; rfl
    | sourceRight =>
      rw [exec_shlReg_sourceRight x y h, exec_shlReg_sourceRight (s := programView s) x y h]; rfl
  case rnd x nn =>
    refine viewOutcome_next ?_
    rw [takeEntropy_programView]
    rfl
  case drw x y n => exact viewOutcome_withEffAddrs s _ fun _ => rfl
  case skp x => exact viewOutcome_skipOnKey x true s
  case sknp x => exact viewOutcome_skipOnKey x false s
  case ldB x => exact viewOutcome_store s _ _
  case ldStore x => exact viewOutcome_store s _ _
  case ldLoad x =>
    exact viewOutcome_withEffAddrs s _ fun as =>
      viewOutcome_next (loadRegsFrom_programView 0 (as.map (readByte s)) s)
  all_goals rfl

theorem viewOutcome_cpuStep (s : State) :
    viewOutcome (cpuStep (programView s)) = viewOutcome (cpuStep s) := by
  have hfetch : fetch16 (programView s) = fetch16 s := rfl
  unfold cpuStep
  rw [hfetch]
  cases fetch16 s with
  | error a => rfl
  | ok w =>
    dsimp only
    cases decodeWord w with
    | none => rfl
    | some i => exact viewOutcome_exec i (advancePc s)

/-- Two states with one view have CPU steps that leave one view. -/
theorem cpuStep_view_congr {s s' t t' : State} (hview : programView s = programView s')
    (h : cpuStep s = .next t) (h' : cpuStep s' = .next t') : programView t = programView t' := by
  have steps : viewOutcome (cpuStep s) = viewOutcome (cpuStep s') :=
    (viewOutcome_cpuStep s).symm.trans (hview ▸ viewOutcome_cpuStep s')
  rw [h, h'] at steps
  exact Host.Outcome.next.inj steps

/-- The frame half of an iteration is outside the program's view. -/
theorem programView_framePhase (s : State) : programView (framePhase s) = programView s := by
  obtain ⟨-, h⟩ | ⟨-, h⟩ := framePhase_cases s
  · rw [h]
  · rw [h]; rfl

/-- The step half answers next, with the view it had or that of one CPU step. -/
theorem exists_stepPhase_view (s : State) :
    ∃ t, stepPhase s = .next t ∧
      (programView t = programView s ∨ ∃ u, cpuStep s = .next u ∧ programView t = programView u) := by
  obtain hlt | hle := lt_or_ge s.sinceLastStep (stepInterval s.cfg)
  · exact ⟨s, stepPhase_idle hlt, .inl rfl⟩
  · obtain ⟨u, hu⟩ := cpuStep_answers_next s
    by_cases hrun : u.run = .running
    · exact ⟨_, stepPhase_running hle hu hrun, .inr ⟨u, hu, rfl⟩⟩
    · exact ⟨u, stepPhase_halting hle hu hrun, .inr ⟨u, hu, rfl⟩⟩

/-- An iteration without quit leaves the view that its step half leaves. -/
theorem exists_schedulerIteration_view {e : Rat} {s u : State} (hu : stepPhase (accumulate e s) = .next u) :
    ∃ t, schedulerIteration e false s = .next t ∧ programView t = programView u := by
  by_cases hrun : u.run = .running
  · exact ⟨_, schedulerIteration_running hu hrun, programView_framePhase u⟩
  · exact ⟨u, schedulerIteration_halting hu hrun, rfl⟩

/-- Settles O51: an iteration is its step half on the view, and a CPU step on a view leaves one view. -/
theorem programCannotSeeTime : Obligations.ProgramCannotSeeTime := by
  unfold Obligations.ProgramCannotSeeTime
  refine ⟨fun s e rest hrun hh => ?iteration, fun s s' hview => ?cpuStep⟩
  case iteration =>
    have hsame : programView (accumulate e { s with hostIn := rest }) = programView (programView s) := rfl
    obtain ⟨u, hu, hview⟩ := exists_stepPhase_view (accumulate e { s with hostIn := rest })
    obtain ⟨t, ht, htu⟩ := exists_schedulerIteration_view hu
    refine ⟨t, (step_iteration hrun hh).trans ht, ?_⟩
    obtain hidle | ⟨w, hw, huw⟩ := hview
    · exact .inl (htu.trans hidle)
    · obtain ⟨v, hv⟩ := cpuStep_answers_next (programView s)
      exact .inr ⟨v, hv, htu.trans (huw.trans (cpuStep_view_congr hsame hw hv))⟩
  case cpuStep =>
    obtain ⟨t, ht⟩ := cpuStep_answers_next s
    obtain ⟨t', ht'⟩ := cpuStep_answers_next s'
    exact ⟨t, t', ht, ht', cpuStep_view_congr hview ht ht'⟩

/-! ### Iterations -/

/-- Settles O47: the quit is looked at first. -/
theorem quitStopsTheBlock : Obligations.QuitStopsTheBlock := by
  unfold Obligations.QuitStopsTheBlock
  intro s e rest hrun hh
  rw [step_iteration hrun hh, schedulerIteration, if_pos rfl]

/-- Settles O48: neither half of the iteration is due. -/
theorem idleIterationAddsTime : Obligations.IdleIterationAddsTime := by
  unfold Obligations.IdleIterationAddsTime
  intro s e rest hrun hh hstep hframe
  have iter := schedulerIteration_running (s := { s with hostIn := rest }) (stepPhase_idle hstep) hrun
  rw [step_iteration hrun hh, iter]
  exact congrArg _ (framePhase_idle hframe)

/-- Settles O49: only the frame half is due, and its tick is the statement's. -/
theorem frameTickPresentsAndCountsDown : Obligations.FrameTickPresentsAndCountsDown := by
  unfold Obligations.FrameTickPresentsAndCountsDown
  intro s e rest hrun hh hstep hframe
  have iter := schedulerIteration_running (s := { s with hostIn := rest }) (stepPhase_idle hstep) hrun
  refine ⟨_, (step_iteration hrun hh).trans iter, ?_⟩
  rw [framePhase_tick hframe]
  exact ⟨decrementTimer_toNat s.dt, decrementTimer_toNat s.st, rfl⟩

/-- Settles O50: the step half runs the CPU step, and the frame half follows it unless it faulted. -/
theorem iterationRunsOneCpuStep : Obligations.IterationRunsOneCpuStep := by
  unfold Obligations.IterationRunsOneCpuStep
  intro s u e rest hrun hh hstep hu
  have left := cpuStep_leaves hu
  have hcfg : u.cfg = s.cfg := left.cfg_eq
  have hframe : u.sinceLastFrame = s.sinceLastFrame + e := left.sinceLastFrame_eq
  rw [step_iteration hrun hh]
  refine ⟨fun hfaulted => ?fault, fun hrunning hlt => ?noTick, fun hrunning hle => ?tick⟩
  case fault =>
    have hne : u.run ≠ .running := by simp [hfaulted]
    exact schedulerIteration_halting (stepPhase_halting hstep hu hne) hne
  case noTick =>
    have iter := schedulerIteration_running (s := { s with hostIn := rest })
      (stepPhase_running hstep hu hrunning) hrunning
    exact iter.trans (congrArg _ (framePhase_idle (by rw [hcfg, hframe]; exact hlt)))
  case tick =>
    have iter := schedulerIteration_running (s := { s with hostIn := rest })
      (stepPhase_running hstep hu hrunning) hrunning
    rw [iter, framePhase_tick (by rw [hcfg, hframe]; exact hle)]
    simp only [frameTick, frameTimers, emit, decrementTimer_eq, hcfg, hframe]
    rfl

/-! ### Status and reset -/

/-- Settles O6: a CPU step and an iteration alike begin with the test of `run`. -/
theorem haltedBlockTakesNoStep : Obligations.HaltedBlockTakesNoStep := by
  unfold Obligations.HaltedBlockTakesNoStep
  intro s hh
  have hstep : ∃ s' go, step s = whenRunning s' go ∧ s'.run = s.run ∧ s'.fault = s.fault := by
    obtain hnil | ⟨e, q, rest, hcons⟩ := hh
    · exact ⟨s, cpuStep, by rw [step, hnil], rfl, rfl⟩
    · exact ⟨{ s with hostIn := rest }, schedulerIteration e q, by rw [step, hcons]; rfl, rfl, rfl⟩
  obtain ⟨s', go, heq, hrun, hfault⟩ := hstep
  rw [heq, whenRunning, hrun, hfault]
  refine ⟨fun h => ?_, fun h => ?_, fun h => ?_⟩ <;> rw [h]

/-- Settles O5: the reset action is taken in every status. -/
theorem resetEventRestoresBlock : Obligations.ResetEventRestoresBlock := by
  unfold Obligations.ResetEventRestoresBlock
  intro s rest hh
  rw [step, hh]
  rfl

end Sys2Proof
end

section
/-! SUPPORT. Accesses at consecutive addresses (R72, R236): what their check answers, and memory after bytes
were stored there. The memory transfers, the fetch and the program load follow. -/

namespace Sys2Proof

open Sys2Proof.Machine

/-! ### Consecutive addresses and their check -/

/-- The addresses a, a + 1, …, n of them, unbounded. -/
def consecutive (a n : Nat) : List Nat := (List.range n).map fun k => a + k

/-- Their effective addresses. -/
def consecutiveEff (a n : Nat) : List Nat := (List.range n).map fun k => (a + k) % 4096

theorem indexAddrs_eq (s : State) (n : Nat) : indexAddrs s n = consecutive s.i.toNat n := rfl

theorem fetchAddrs_eq (s : State) :
    fetchAddrs s = effAddrs s.cfg.rangePolicy (consecutive s.pc.toNat 2) := rfl

theorem consecutiveEff_length (a n : Nat) : (consecutiveEff a n).length = n := by simp [consecutiveEff]

theorem consecutiveEff_getD {a n k : Nat} (hk : k < n) : (consecutiveEff a n).getD k 0 = (a + k) % 4096 := by
  simp [consecutiveEff, hk]

theorem consecutive_nodup (a n : Nat) : (consecutive a n).Nodup :=
  List.nodup_range.map fun _ _ h => Nat.add_left_cancel h

theorem consecutiveEff_nodup {n : Nat} (a : Nat) (hn : n ≤ 4096) : (consecutiveEff a n).Nodup := by
  refine List.nodup_range.map_on fun j hj k hk h => ?_
  rw [List.mem_range] at hj hk
  omega

theorem effAddrs_consecutive {p : RangePolicy} {a n : Nat} (h : p = .wrap ∨ a + n ≤ 4096) :
    effAddrs p (consecutive a n) = .ok (consecutiveEff a n) := by
  rw [effAddrs_eq_ok_iff]
  refine ⟨h.imp_right fun hle b hb => ?_, by simp [consecutive, consecutiveEff]⟩
  obtain ⟨k, hk, rfl⟩ := List.mem_map.1 hb
  rw [List.mem_range] at hk
  omega

/-- Under `FAULT` the first address out of range is the first one at 4096 or above. -/
theorem effAddrs_consecutive_error {a n : Nat} (hn : 0 < n) (h : 4096 < a + n) :
    effAddrs .fault (consecutive a n) = .error (max a 4096) := by
  obtain ⟨j, hj⟩ : ∃ j, max a 4096 = a + j := ⟨max a 4096 - a, by omega⟩
  obtain ⟨m, rfl⟩ : ∃ m, n = j + (1 + m) := ⟨n - j - 1, by omega⟩
  rw [hj, effAddrs_eq_error_iff]
  refine ⟨rfl, consecutive a j, (List.range m).map fun k => a + (j + (1 + k)), ?_, ?_, by omega⟩
  · simp [consecutive, List.range_add, Function.comp_def]
  · intro b hb
    obtain ⟨k, hk, rfl⟩ := List.mem_map.1 hb
    rw [List.mem_range] at hk
    omega

/-! ### Memory after a store -/

/-- Bytes stored at distinct addresses are read back in their order. -/
theorem readByte_writeBytes_zip {as : List Nat} {bs : List Byte} (hd : as.Nodup)
    (hlen : as.length = bs.length) (s : State) {k : Nat} (hk : k < as.length) :
    readByte (writeBytes (as.zip bs) s) (as.getD k 0) = bs.getD k 0 := by
  refine readByte_writeBytes_mem _ s _ _ (by rwa [List.map_fst_zip hlen.le]) ?_
  rw [List.getD_eq_getElem _ _ hk, List.getD_eq_getElem _ _ (hlen ▸ hk), List.mem_iff_getElem]
  exact ⟨k, by rw [List.length_zip]; omega, List.getElem_zip⟩

theorem mem_of_mem_map_fst_zip {as : List Nat} {bs : List Byte} {a : Nat}
    (h : a ∈ (as.zip bs).map Prod.fst) : a ∈ as := by
  obtain ⟨e, he, rfl⟩ := List.mem_map.1 h
  exact (List.of_mem_zip he).1

theorem onlyMemoryChanges_writeBytes_zip (as : List Nat) (bs : List Byte) (s : State) :
    onlyMemoryChanges as s (writeBytes (as.zip bs) s) := by
  have bytes : sameMemoryExcept as s (writeBytes (as.zip bs) s) := fun a ha =>
    readByte_writeBytes_other _ s a fun hmem => ha (mem_of_mem_map_fst_zip hmem)
  rw [writeBytes_only] at bytes ⊢
  exact ⟨fun _ _ => rfl, rfl, rfl, ⟨rfl, rfl⟩, bytes, ⟨rfl, rfl⟩, ⟨rfl, rfl, rfl⟩,
    sameRest_refl s⟩

/-! ### Memory transfers -/

/-- The digits of a byte fit bytes. -/
theorem bcdDigits_toNat (v : Byte) :
    (bcdDigits v).map BitVec.toNat = [v.toNat / 100, v.toNat / 10 % 10, v.toNat % 10] := by
  have hv := v.isLt
  simp only [bcdDigits, List.map_cons, List.map_nil, BitVec.toNat_ofNat, List.cons.injEq, and_true]
  omega

/-- Settles O33: a store of the three digits at the effective addresses. -/
theorem bcdStoresDigits : Obligations.BcdStoresDigits := by
  unfold Obligations.BcdStoresDigits
  intro x s h
  have addrs : effAddrs s.cfg.rangePolicy (indexAddrs s 3) = .ok (consecutiveEff s.i.toNat 3) :=
    effAddrs_consecutive h
  have stored := fun k (hk : k < 3) => readByte_writeBytes_zip (k := k)
    (consecutiveEff_nodup s.i.toNat (n := 3) (by omega)) (bs := bcdDigits (getV s x)) rfl s hk
  have digits := bcdDigits_toNat (getV s x)
  simp only [bcdDigits, List.map_cons, List.map_nil, List.cons.injEq, and_true] at digits
  obtain ⟨hundreds, tens, ones⟩ := digits
  refine ⟨_, _, _, _, addrs, rfl, rfl, rfl, withEffAddrs_ok addrs, ?_, ?_, ?_,
    onlyMemoryChanges_writeBytes_zip (consecutiveEff s.i.toNat 3) _ s⟩
  · exact (congrArg BitVec.toNat (stored 0 (by decide))).trans hundreds
  · exact (congrArg BitVec.toNat (stored 1 (by decide))).trans tens
  · exact (congrArg BitVec.toNat (stored 2 (by decide))).trans ones

theorem regsUpTo_length (s : State) (x : Reg) : (regsUpTo s x).length = x.val + 1 := by
  simp only [regsUpTo, List.length_take, Vector.length_toList]
  omega

theorem regsUpTo_getD (s : State) {x k : Reg} (hk : k ≤ x) : (regsUpTo s x).getD k.val 0 = getV s k := by
  have hlt : k.val < (regsUpTo s x).length := by rw [regsUpTo_length]; exact Nat.lt_succ_of_le hk
  rw [List.getD_eq_getElem _ _ hlt]
  simp [regsUpTo, getV]

/-- Settles O34: a store of the registers at the effective addresses. -/
theorem storeRegistersToMemory : Obligations.StoreRegistersToMemory := by
  unfold Obligations.StoreRegistersToMemory
  intro x s h
  have addrs : effAddrs s.cfg.rangePolicy (indexAddrs s (x.val + 1)) =
      .ok (consecutiveEff s.i.toNat (x.val + 1)) := effAddrs_consecutive h
  have distinct := consecutiveEff_nodup s.i.toNat (n := x.val + 1) (by omega)
  have len : (consecutiveEff s.i.toNat (x.val + 1)).length = (regsUpTo s x).length := by
    rw [consecutiveEff_length, regsUpTo_length]
  refine ⟨_, _, addrs, fun k hk => consecutiveEff_getD (Nat.lt_succ_of_le hk), withEffAddrs_ok addrs,
    fun k hk => ?_, onlyMemoryChanges_writeBytes_zip _ _ s⟩
  have hlt : k.val < (consecutiveEff s.i.toNat (x.val + 1)).length := by
    rw [consecutiveEff_length]
    exact Nat.lt_succ_of_le hk
  rw [readByte_writeBytes_zip distinct len s hlt, regsUpTo_getD s hk]

theorem onlyRegsChange_loadRegsFrom (x : Reg) {bs : List Byte} (hlen : bs.length = x.val + 1) (s : State) :
    onlyRegsChange (regsThrough x) s (loadRegsFrom 0 bs s) := by
  have regs : sameRegsExcept (regsThrough x) s (loadRegsFrom 0 bs s) := by
    intro r hr
    rw [mem_regsThrough, Fin.le_def] at hr
    rw [getV_loadRegsFrom, if_neg (by omega)]
  rw [loadRegsFrom_only] at regs ⊢
  exact onlyRegsChange_of_v regs

/-- Settles O35: the bytes at the effective addresses go to the registers in their order. -/
theorem loadRegistersFromMemory : Obligations.LoadRegistersFromMemory := by
  unfold Obligations.LoadRegistersFromMemory
  intro x s h
  have addrs : effAddrs s.cfg.rangePolicy (indexAddrs s (x.val + 1)) =
      .ok (consecutiveEff s.i.toNat (x.val + 1)) := effAddrs_consecutive h
  have len : ((consecutiveEff s.i.toNat (x.val + 1)).map (readByte s)).length = x.val + 1 := by
    rw [List.length_map, consecutiveEff_length]
  refine ⟨_, withEffAddrs_ok addrs, fun k hk => ?_, onlyRegsChange_loadRegsFrom x len s⟩
  have hlt : k.val < x.val + 1 := Nat.lt_succ_of_le hk
  rw [getV_loadRegsFrom, len, if_pos (by omega)]
  simp [consecutiveEff, hlt]

/-- A check of index addresses that pass 0xFFF raises the fault of the first of them. -/
theorem withEffAddrs_indexAddrs_faults {s : State} {n : Nat} (hp : s.cfg.rangePolicy = .fault) (hn : 0 < n)
    (h : 4096 < s.i.toNat + n) (go : List Nat → Host.Outcome State Fault Refusal) :
    ∃ t, withEffAddrs s (indexAddrs s n) go = .next t ∧
      faultTaken (.addressOutOfRange (max s.i.toNat 4096)) s t :=
  ⟨_, withEffAddrs_error (by rw [hp]; exact effAddrs_consecutive_error hn h), rfl⟩

/-- Settles O36: the four meanings begin with the check of their index addresses. -/
theorem dataAddressOutOfRangeFaults : Obligations.DataAddressOutOfRangeFaults := by
  unfold Obligations.DataAddressOutOfRangeFaults
  intro s hp
  refine ⟨fun x h => ?ldB, fun x h => ⟨?ldStore, ?ldLoad⟩, fun x y n hn h => ?drw⟩
  case ldB => exact withEffAddrs_indexAddrs_faults hp (by omega) h _
  case ldStore => exact withEffAddrs_indexAddrs_faults hp (by omega) h _
  case ldLoad => exact withEffAddrs_indexAddrs_faults hp (by omega) h _
  case drw => exact withEffAddrs_indexAddrs_faults hp hn h _

/-! ### The fetch -/

section
variable {s : State}

theorem step_running (hrun : s.run = .running) (hh : s.hostIn = []) : step s = cpuStep s := by
  rw [step, hh]
  exact whenRunning_running cpuStep hrun

theorem fetch16_of_effAddr {a0 a1 : Nat} (h0 : effAddr s.cfg.rangePolicy s.pc.toNat = .ok a0)
    (h1 : effAddr s.cfg.rangePolicy (s.pc.toNat + 1) = .ok a1) :
    fetch16 s = .ok (wordOfBytes (readByte s a0) (readByte s a1)) := by
  simp [fetch16, fetchAddrs, effAddrs, h0, h1]

theorem cpuStep_of_decode {w : Word} {i : Instr} (hf : fetch16 s = .ok w) (hd : decodeWord w = some i) :
    cpuStep s = exec i (advancePc s) := by
  simp only [cpuStep, hf, hd]

/-- The two bytes stored where the pc stands are the next word fetched. -/
theorem fetch16_writeBytes_consecutive (h : s.cfg.rangePolicy = .wrap ∨ s.pc.toNat + 2 ≤ 4096)
    (b0 b1 : Byte) :
    fetch16 (writeBytes ((consecutiveEff s.pc.toNat 2).zip [b0, b1]) s) = .ok (wordOfBytes b0 b1) := by
  have stored := fun k (hk : k < 2) => readByte_writeBytes_zip (k := k)
    (consecutiveEff_nodup s.pc.toNat (n := 2) (by omega)) (bs := [b0, b1]) rfl s hk
  have addrs : fetchAddrs (writeBytes ((consecutiveEff s.pc.toNat 2).zip [b0, b1]) s) =
      .ok (consecutiveEff s.pc.toNat 2) := by
    rw [writeBytes_only]
    exact effAddrs_consecutive h
  rw [fetch16, addrs]
  exact congrArg Except.ok (congrArg₂ wordOfBytes (stored 0 (by decide)) (stored 1 (by decide)))

end

/-- The policy and pc with which the two bytes of a fetch can be addressed. -/
theorem fetchable_of_effAddr {p : RangePolicy} {a a1 : Nat} (h1 : effAddr p (a + 1) = .ok a1) :
    p = .wrap ∨ a + 2 ≤ 4096 := by
  obtain ⟨h, -⟩ := (effAddr_eq_ok_iff p (a + 1) a1).1 h1
  exact h.symm.imp_right fun hlt => hlt

/-- Settles O12: the step of a RUNNING block is a CPU step, whose fetch passes the check. -/
theorem stepRunsDecodedInstruction : Obligations.StepRunsDecodedInstruction := by
  unfold Obligations.StepRunsDecodedInstruction
  intro s a0 a1 i hrun hh h0 h1 hd
  rw [step_running hrun hh]
  exact cpuStep_of_decode (fetch16_of_effAddr h0 h1) hd

/-- Settles O13: the fault is raised after the advance of pc, so its address is pc itself. -/
theorem unimplementedWordFaults : Obligations.UnimplementedWordFaults := by
  unfold Obligations.UnimplementedWordFaults
  intro s w hrun hh hf hd
  have addr : instrAddr (advancePc s) = s.pc := BitVec.add_sub_cancel s.pc 2
  rw [step_running hrun hh]
  simp only [cpuStep, hf, hd, raise, addr]
  rfl

/-- Settles O14: the fetch is a check of two consecutive addresses. -/
theorem fetchOutOfRangeFaults : Obligations.FetchOutOfRangeFaults := by
  unfold Obligations.FetchOutOfRangeFaults
  intro s hrun hh hp hpc
  have addrs : fetchAddrs s = .error (max s.pc.toNat 4096) := by
    rw [fetchAddrs_eq, hp]
    exact effAddrs_consecutive_error (by omega) (by omega)
  rw [step_running hrun hh]
  simp only [cpuStep, fetch16, addrs]
  rfl

/-- Settles O15: Fx55 with x = 1 stores at the two addresses of the fetch. -/
theorem storeIsSeenByNextFetch : Obligations.StoreIsSeenByNextFetch := by
  unfold Obligations.StoreIsSeenByNextFetch
  intro s t a0 a1 hi _ h1 h
  have hok := fetchable_of_effAddr h1
  have addrs : effAddrs s.cfg.rangePolicy (indexAddrs s 2) = .ok (consecutiveEff s.pc.toNat 2) := by
    rw [indexAddrs_eq, hi]
    exact effAddrs_consecutive hok
  have regs : regsUpTo s 1 = [getV s 0, getV s 1] := by
    refine List.ext_getElem (regsUpTo_length s 1) fun k _ hk => ?_
    obtain rfl | rfl : k = 0 ∨ k = 1 := by simp only [List.length_cons, List.length_nil] at hk; omega
    · simp [regsUpTo, getV]
    · simp [regsUpTo, getV]
  have done : exec (.ldStore 1) s = .next (writeBytes ((consecutiveEff s.pc.toNat 2).zip (regsUpTo s 1)) s) :=
    withEffAddrs_ok addrs
  cases h.symm.trans done
  rw [regs]
  exact fetch16_writeBytes_consecutive hok _ _

/-! ### The host's word placement -/

/-- Where a word is placed, a fetch passes the check. -/
theorem fetchable_placePc (s : State) :
    s.cfg.rangePolicy = .wrap ∨ (placePc s).toNat + 2 ≤ 4096 := by
  unfold placePc
  split
  next as has =>
    obtain ⟨hok, -⟩ := (effAddrs_eq_ok_iff _ _ _).1 has
    exact hok.imp_right fun hlt => hlt (s.pc.toNat + 1) (by simp)
  next => exact .inr (by decide)

theorem placePc_eq_pc {s : State} (h : s.pc.toNat + 1 < 4096) : placePc s = s.pc := by
  have addrs : fetchAddrs s = .ok (consecutiveEff s.pc.toNat 2) := by
    rw [fetchAddrs_eq]
    exact effAddrs_consecutive (.inr h)
  rw [placePc, addrs]

/-- The state `withFetchWord` starts from: RUNNING, no fault, no host action, pc where a fetch passes. -/
def readyToPlace (s : State) : State :=
  { s with pc := placePc s, run := .running, fault := none, hostIn := [] }

theorem placeWord_eq (w : Word) (s : State) :
    placeWord w s =
      writeBytes ((consecutiveEff (placePc s).toNat 2).zip [highByte w, lowByte w]) (readyToPlace s) := by
  have addrs : fetchAddrs (readyToPlace s) = .ok (consecutiveEff (placePc s).toNat 2) :=
    effAddrs_consecutive (fetchable_placePc s)
  rw [readyToPlace] at addrs ⊢
  simp only [placeWord, addrs]

/-- Settles O16: the word is placed where the fetch reads it, by a write of memory alone. -/
theorem withFetchWordIsRunNext : Obligations.WithFetchWordIsRunNext := by
  unfold Obligations.WithFetchWordIsRunNext
  intro s w i hd hw
  have word : BitVec.ofNat 16 (w % 2 ^ 16) = BitVec.ofNat 16 w := congrArg _ (Nat.mod_eq_of_lt hw)
  have placed := placeWord_eq (BitVec.ofNat 16 w) s
  have fetched : fetch16 (placeWord (BitVec.ofNat 16 w) s) = .ok (BitVec.ofNat 16 w) := by
    have hf := fetch16_writeBytes_consecutive (s := readyToPlace s) (fetchable_placePc s)
      (highByte (BitVec.ofNat 16 w)) (lowByte (BitVec.ofNat 16 w))
    rw [wordOfBytes_high_low] at hf
    exact placed ▸ hf
  rw [writeBytes_only] at placed
  refine ⟨advancePc (placeWord (BitVec.ofNat 16 w) s), ?_, ?_⟩
  · rw [State.withFetchWord, word, step_running (by rw [placed]; rfl) (by rw [placed]; rfl)]
    exact cpuStep_of_decode fetched hd
  · rw [placed]
    refine ⟨rfl, rfl, rfl, rfl, rfl, rfl, rfl, rfl, fun hpc => ?_⟩
    rw [← placePc_eq_pc hpc]
    rfl

/-! ### The program load -/

theorem romCells_eq (bytes : List Byte) : romCells bytes = (consecutive 0x200 bytes.length).zip bytes := rfl

/-- A program loaded is read back from 0x200 on. -/
theorem readByte_writeBytes_romCells (bytes : List Byte) (s : State) {k : Nat} (hk : k < bytes.length) :
    readByte (writeBytes (romCells bytes) s) (0x200 + k) = bytes.getD k 0 := by
  have len : (consecutive 0x200 bytes.length).length = bytes.length := by simp [consecutive]
  have stored := readByte_writeBytes_zip (consecutive_nodup 0x200 bytes.length) len s (len ▸ hk)
  rw [romCells_eq, ← stored]
  simp [consecutive, hk]

theorem readByte_writeBytes_romCells_other (bytes : List Byte) (s : State) {a : Nat}
    (ha : a < 0x200 ∨ 0x200 + bytes.length ≤ a) :
    readByte (writeBytes (romCells bytes) s) a = readByte s a := by
  refine readByte_writeBytes_other _ s a fun hmem => ?_
  obtain ⟨k, hk, rfl⟩ := List.mem_map.1 (mem_of_mem_map_fst_zip hmem)
  rw [List.mem_range] at hk
  have hlow : progBase + k < 0x200 ∨ 0x200 + bytes.length ≤ progBase + k := ha
  simp only [progBase] at hlow
  omega

/-- Settles O4: a load awaited is `LoadProgram` by the length of the bytes; any other is refused. -/
theorem loadProgramAnswers : Obligations.LoadProgramAnswers := by
  unfold Obligations.LoadProgramAnswers
  intro s bytes rest hh
  refine ⟨fun hrun hload => ?awaited, fun hnot => ?refused⟩
  case refused =>
    rw [step, hh]
    exact if_neg fun ⟨hrun, hload⟩ => hnot.elim (· hrun) (· hload)
  case awaited =>
    have taken : step s = .next (loadProgram bytes { s with hostIn := rest }) := by
      rw [step, hh]
      exact if_pos ⟨hrun, hload⟩
    rw [taken]
    refine ⟨fun hlen => ?empty, fun hlen => ?tooLarge, fun hpos hle => ?loaded⟩
    case empty => rw [loadProgram, if_pos hlen]
    case tooLarge => rw [loadProgram, if_neg (by omega), if_pos hlen]
    case loaded =>
      rw [loadProgram, if_neg (by omega), if_neg (not_lt.2 hle)]
      refine ⟨_, rfl, rfl, rfl, fun k hk => ?_, fun a ha => ?_, ?_⟩
      · exact readByte_writeBytes_romCells bytes { s with hostIn := rest } hk
      · exact readByte_writeBytes_romCells_other bytes { s with hostIn := rest } ha
      · rw [writeBytes_only]

end Sys2Proof
end

section
/-! SUPPORT. The display (R270 to R274): what a completed DRW leaves, pixel by pixel, and who writes VF
(R32). -/

namespace Sys2Proof

open Sys2Proof.Machine

/-! ### What DRW leaves -/

/-- The blit of DRW from the registers and memory of a state, on a framebuffer with no collision yet. -/
def blitOf (x y : Reg) (n : Nat) (s : State) (fb : Framebuffer) : Framebuffer × Bool :=
  blitRows (originCol s x) (originRow s y) (spriteBytes s (rowsOnScreen s y n)) (fb, false)

/-- The state a DRW leaves whose rows can be read. -/
def afterDrw (x y : Reg) (n : Nat) (s : State) : State :=
  setFlag (blitOf x y n s s.fb).2 { s with fb := (blitOf x y n s s.fb).1 }

section
variable {x y : Reg} {n : Nat} {s t : State}

theorem exec_drw_ok {as : List Nat}
    (h : effAddrs s.cfg.rangePolicy (indexAddrs s (rowsOnScreen s y n)) = .ok as) :
    exec (.drw x y n) s = .next (afterDrw x y n s) := by
  have bytes : as.map (readByte s) = spriteBytes s (rowsOnScreen s y n) := by
    obtain ⟨-, rfl⟩ := (effAddrs_eq_ok_iff _ _ _).1 h
    simp [indexAddrs, spriteBytes, Function.comp_def]
  refine (withEffAddrs_ok h).trans ?_
  rw [bytes]
  rfl

/-- A DRW that leaves the block RUNNING passed the check of its rows. -/
theorem exec_drw_running (h : exec (.drw x y n) s = .next t) (ht : t.run = .running) :
    (∃ as, effAddrs s.cfg.rangePolicy (indexAddrs s (rowsOnScreen s y n)) = .ok as) ∧
      t = afterDrw x y n s := by
  obtain ⟨e, -, hraise⟩ | ⟨as, has, -⟩ := withEffAddrs_cases h
  · cases hraise
    cases ht
  · exact ⟨⟨as, has⟩, Host.Outcome.next.inj (h.symm.trans (exec_drw_ok has))⟩

/-- The check of DRW's rows depends on I, Vy and the parameters alone. -/
theorem drw_check_congr (hy : getV t y = getV s y) (hi : t.i = s.i) (hc : t.cfg = s.cfg) :
    effAddrs t.cfg.rangePolicy (indexAddrs t (rowsOnScreen t y n)) =
      effAddrs s.cfg.rangePolicy (indexAddrs s (rowsOnScreen s y n)) := by
  simp only [indexAddrs, rowsOnScreen, originRow, hy, hi, hc]

/-- The blit of DRW depends on Vx, Vy, I, memory and the parameters alone. -/
theorem blitOf_congr (hx : getV t x = getV s x) (hy : getV t y = getV s y) (hi : t.i = s.i)
    (hm : t.mem = s.mem) (hc : t.cfg = s.cfg) : blitOf x y n t = blitOf x y n s := by
  funext fb
  simp only [blitOf, originCol, originRow, rowsOnScreen, spriteBytes, readByte, hx, hy, hi, hm, hc]

end

/-- On the screen's columns, the statement's notion of a covered pixel is that of the blit's law. -/
theorem spriteCovers_eq_rowsCover (bytes : List Byte) (x0 y0 row : Nat) {col : Nat} (hcol : col < 64) :
    spriteCovers bytes x0 y0 row col = rowsCover bytes x0 y0 row col := by
  have hw : col < displayW := hcol
  simp [spriteCovers, rowsCover, rowCovers, hw, Bool.and_assoc]

/-- Whether the sprite of a DRW covers a pixel. -/
def drwCovers (x y : Reg) (n : Nat) (s : State) (row col : Nat) : Bool :=
  spriteCovers (spriteBytes s (rowsOnScreen s y n)) (originCol s x) (originRow s y) row col

section
variable (x y : Reg) (n : Nat) (s : State)

theorem spriteRows_fit : originRow s y + (spriteBytes s (rowsOnScreen s y n)).length ≤ 32 := by
  have hrow : originRow s y < 32 := Nat.mod_lt _ (by decide)
  have hlen : (spriteBytes s (rowsOnScreen s y n)).length = min n (32 - originRow s y) := by
    simp [spriteBytes, rowsOnScreen]
  omega

/-- The blit of DRW flips the covered pixels. -/
theorem pixel_blitOf (fb : Framebuffer) {row col : Nat} (hrow : row < 32) (hcol : col < 64) :
    pixel (blitOf x y n s fb).1 row col = (pixel fb row col ^^ drwCovers x y n s row col) := by
  obtain ⟨pixels, -⟩ := blitRows_spec (spriteBytes s (rowsOnScreen s y n)) (originCol s x) (originRow s y)
    (fb, false) (spriteRows_fit y n s)
  rw [drwCovers, spriteCovers_eq_rowsCover _ _ _ _ hcol]
  exact pixels row col hrow hcol

/-- The blit of DRW collides exactly when a covered pixel was set. -/
theorem blitOf_collides (fb : Framebuffer) :
    (blitOf x y n s fb).2 = true ↔
      ∃ row col, row < 32 ∧ col < 64 ∧ pixel fb row col = true ∧ drwCovers x y n s row col = true := by
  obtain ⟨-, collision⟩ := blitRows_spec (spriteBytes s (rowsOnScreen s y n)) (originCol s x)
    (originRow s y) (fb, false) (spriteRows_fit y n s)
  refine collision.trans ⟨?_, ?_⟩
  · rintro (h | ⟨row, col, hrow, hcol, hcov, hpix⟩)
    · cases h
    · exact ⟨row, col, hrow, hcol, hpix, (spriteCovers_eq_rowsCover _ _ _ _ hcol).trans hcov⟩
  · rintro ⟨row, col, hrow, hcol, hpix, hcov⟩
    exact .inr ⟨row, col, hrow, hcol, (spriteCovers_eq_rowsCover _ _ _ _ hcol).symm.trans hcov, hpix⟩

theorem getV_afterDrw_flag : getV (afterDrw x y n s) 15 = flagByte (blitOf x y n s s.fb).2 :=
  getV_setV_same ..

/-- Of the registers DRW writes VF alone. -/
theorem getV_afterDrw_other {r : Reg} (hr : r ≠ 15) : getV (afterDrw x y n s) r = getV s r :=
  getV_setV_other hr _ { s with fb := (blitOf x y n s s.fb).1 }

end

/-! ### The obligations -/

/-- Settles O38: CLS replaces the framebuffer and appends the event. -/
theorem clearScreenClearsAll : Obligations.ClearScreenClearsAll := by
  unfold Obligations.ClearScreenClearsAll
  exact fun s => ⟨_, rfl, pixel_cleared, rfl, fun _ _ => rfl, rfl, rfl, ⟨rfl, rfl⟩, fun _ => rfl,
    ⟨rfl, rfl, rfl⟩, sameRest_refl s⟩

/-- Settles O39: the check passes, and the blit flips the covered pixels. -/
theorem drawFlipsSpritePixels : Obligations.DrawFlipsSpritePixels := by
  unfold Obligations.DrawFlipsSpritePixels
  intro x y n s x0 y0 bytes h
  have addrs := effAddrs_indexAddrs s (rowsOnScreen s y n)
    (h.imp_right fun h => h.imp_right fun hn => by simp [rowsOnScreen, hn])
  refine ⟨afterDrw x y n s, exec_drw_ok addrs, fun row col => pixel_blitOf x y n s s.fb, ?flag, ?collision,
    fun r hr => getV_afterDrw_other x y n s (by simpa using hr), rfl, rfl, ⟨rfl, rfl⟩, fun _ => rfl, rfl,
    ⟨rfl, rfl, rfl⟩, sameRest_refl s⟩
  case flag =>
    rw [getV_afterDrw_flag]
    exact flagByte_zero_or_one _
  case collision =>
    rw [getV_afterDrw_flag, flagByte_eq_one]
    exact blitOf_collides x y n s s.fb

/-- Settles O40: the second DRW reads the same sprite and origin, and flips every covered pixel back. -/
theorem drawTwiceRestoresScreen : Obligations.DrawTwiceRestoresScreen := by
  unfold Obligations.DrawTwiceRestoresScreen
  intro x y n s t u hx hy _ ht hrun hu
  obtain ⟨⟨as, has⟩, rfl⟩ := exec_drw_running ht hrun
  have vx := getV_afterDrw_other x y n s hx
  have vy := getV_afterDrw_other x y n s hy
  have check := (drw_check_congr (n := n) vy rfl rfl).trans has
  cases hu.symm.trans (exec_drw_ok check)
  have same : blitOf x y n (afterDrw x y n s) = blitOf x y n s := blitOf_congr vx vy rfl rfl rfl
  have first : ∀ {row col}, row < 32 → col < 64 →
      pixel (afterDrw x y n s).fb row col = (pixel s.fb row col ^^ drwCovers x y n s row col) :=
    fun hrow hcol => pixel_blitOf x y n s s.fb hrow hcol
  constructor
  · refine framebuffer_ext fun row col hrow hcol => ?_
    show pixel (blitOf x y n (afterDrw x y n s) (afterDrw x y n s).fb).1 row col = _
    rw [same, pixel_blitOf x y n s _ hrow hcol, first hrow hcol, Bool.xor_assoc, Bool.xor_self,
      Bool.xor_false]
  · rw [getV_afterDrw_flag, flagByte_eq_one, same, blitOf_collides]
    refine exists_congr fun row => exists_congr fun col => and_congr_right fun hrow =>
      and_congr_right fun hcol => and_congr_left fun hcov => ?_
    have covered : drwCovers x y n s row col = true := hcov
    rw [first hrow hcol, covered, Bool.xor_true, Bool.not_eq_true']

/-! ### Who writes VF -/

/-- The flag that 8xyE writes, by variant. -/
def shlFlag (x : Reg) (s : State) : Bool :=
  match s.cfg.shlVariant with
  | .left => bit7Flag (getV s x)
  | .sourceRight => (takeShlFlag s).1

theorem exec_shlReg_flag (x y : Reg) (s : State) :
    ∃ t, exec (.shlReg x y) s = .next t ∧ getV t 15 = flagByte (shlFlag x s) := by
  cases h : s.cfg.shlVariant with
  | left => exact ⟨_, exec_shlReg_left x y h, by rw [getV_setResultAndFlag_flag, shlFlag, h]⟩
  | sourceRight => exact ⟨_, exec_shlReg_sourceRight x y h, by rw [getV_setResultAndFlag_flag, shlFlag, h]⟩

theorem shlFlag_setV_flag {x : Reg} (hx : x ≠ 15) (b : Byte) (s : State) :
    shlFlag x (setV 15 b s) = shlFlag x s := by
  simp only [shlFlag, getV_setV_other hx, setV_cfg]
  rfl

/-- A flag writer that completes leaves a flag in VF. -/
theorem exists_getV_flag_of_writesFlag {i : Instr} {s t : State} (hi : writesFlag i)
    (h : exec i s = .next t) (ht : t.run = .running) : ∃ f, getV t 15 = flagByte f := by
  obtain ⟨x, y, n, rfl | rfl | rfl | rfl | rfl | rfl⟩ := hi
  case inr.inr.inr.inr.inl =>
    obtain ⟨u, hu, hflag⟩ := exec_shlReg_flag x y s
    cases h.symm.trans hu
    exact ⟨_, hflag⟩
  case inr.inr.inr.inr.inr =>
    obtain ⟨-, rfl⟩ := exec_drw_running h ht
    exact ⟨_, getV_afterDrw_flag x y n s⟩
  all_goals cases h; exact ⟨_, getV_setResultAndFlag_flag ..⟩

/-- Settles O30: the flag is computed from the operands, and only a flag writer or a destination changes
VF. -/
theorem flagRegisterDiscipline : Obligations.FlagRegisterDiscipline := by
  unfold Obligations.FlagRegisterDiscipline
  refine ⟨fun i s t hi _ h ht => ?zeroOrOne, fun x y n i b s t hx hy hi _ h ht => ?overwrites,
    fun i s t hi hdest h => ?others⟩
  case zeroOrOne =>
    obtain ⟨f, hf⟩ := exists_getV_flag_of_writesFlag hi h ht
    rw [hf]
    exact flagByte_zero_or_one f
  case overwrites =>
    have vx : getV (setV 15 b s) x = getV s x := getV_setV_other hx b s
    have vy : getV (setV 15 b s) y = getV s y := getV_setV_other hy b s
    simp only [List.mem_cons, List.not_mem_nil, or_false] at hi
    obtain rfl | rfl | rfl | rfl | rfl | rfl := hi
    case inr.inr.inr.inr.inl =>
      obtain ⟨t', ht', hflag⟩ := exec_shlReg_flag x y s
      obtain ⟨u, hu, huflag⟩ := exec_shlReg_flag x y (setV 15 b s)
      cases h.symm.trans ht'
      exact ⟨u, hu, by rw [huflag, hflag, shlFlag_setV_flag hx]⟩
    case inr.inr.inr.inr.inr =>
      obtain ⟨⟨as, has⟩, rfl⟩ := exec_drw_running h ht
      have check := (drw_check_congr (n := n) vy (setV_i s 15 b) (setV_cfg s 15 b)).trans has
      have same : blitOf x y n (setV 15 b s) = blitOf x y n s := blitOf_congr vx vy rfl rfl rfl
      exact ⟨_, exec_drw_ok check, by rw [getV_afterDrw_flag, getV_afterDrw_flag, same, setV_fb]⟩
    all_goals
      cases h
      refine ⟨_, rfl, ?_⟩
      rw [getV_setResultAndFlag_flag, getV_setResultAndFlag_flag, vx]
    all_goals rw [vy]
  case others =>
    obtain ⟨c, rfl, -⟩ | hdone := exec_next h
    · rfl
    · exact hdone.regs 15 hdest fun hflag => absurd hflag hi

end Sys2Proof
end

section
/-! SUPPORT. The state after reset (R400, R45). -/

namespace Sys2Proof

open Sys2Proof.Machine

/-- Memory lists nothing at reset, so every address reads its reset content. -/
theorem readByte_resetWith (c : Config) (a : Nat) : readByte (State.resetWith c) a = background c a := rfl

theorem background_font (c : Config) {d : Nat} (hd : d < 80) :
    background c (0x050 + d) = c.font.getD d 0 := by
  have hin : fontBase ≤ 0x050 + d ∧ 0x050 + d < fontBase + 80 :=
    ⟨Nat.le_add_right _ d, Nat.add_lt_add_left hd _⟩
  rw [background, if_pos hin]
  exact congrArg (c.font.getD · 0) (Nat.add_sub_cancel_left ..)

theorem background_elsewhere (c : Config) {a : Nat} (ha : a < 0x050 ∨ 0x0A0 ≤ a) :
    background c a = 0 := by
  refine if_neg fun ⟨hlo, hhi⟩ => ?_
  have hlo' : 0x050 ≤ a := hlo
  have hhi' : a < 0x0A0 := hhi
  omega

/-- Settles O1: each component is the value `resetWith` gives it. -/
theorem resetLeavesStatedValues : Obligations.ResetLeavesStatedValues := by
  unfold Obligations.ResetLeavesStatedValues
  intro c s
  refine ⟨rfl, fun r => ?regs, rfl, fun k => ?stack, rfl, rfl, rfl, pixel_cleared, rfl, rfl, rfl, rfl, rfl,
    fun d hd => ?font, fun a ha => ?zero⟩
  case regs => exact Vector.getElem_replicate r.isLt
  case stack => exact Vector.getElem_replicate k.isLt
  case font => exact (readByte_resetWith c _).trans (background_font c hd)
  case zero => exact (readByte_resetWith c a).trans (background_elsewhere c ha)

/-- The free value of `IPS` is a quotient of two positive numbers. -/
theorem openIps_pos : 0 < Config.openIps :=
  div_pos (Nat.cast_pos.2 (Nat.succ_pos _)) (Nat.cast_pos.2 (Nat.succ_pos _))

/-- Settles O2: the default parameters are well formed, and reset has no fault, no load and no time. -/
theorem resetMeetsInvariant : Obligations.ResetMeetsInvariant := by
  unfold Obligations.ResetMeetsInvariant
  exact {
    mem_wf := reset_memory_wf Config.default
    cfg_wf := ⟨rfl, openIps_pos, by decide⟩
    step_time := le_refl 0
    frame_time := le_refl 0
    host_ok := fun e he => absurd he (List.not_mem_nil (a := e))
    fault_iff := by simp [State.reset, State.resetWith]
    load_iff := by simp [State.reset, State.resetWith]
    timers := ⟨rfl, rfl⟩ }

end Sys2Proof
end
